-- ==== Sys2Proof/Word.lean ====
section
/-! DEFINITION. The word types of GF8DEC: what the spec treats as bits (00_scope.md R7, R8; 20_memory.md R70). -/

namespace Sys2Proof

/-- A field element: a value in 0..255 read as a polynomial over GF(2) (R5, R8). -/
abbrev Elem := BitVec 8

/-- A host port word, and a command word (R73, R100). -/
abbrev Word := BitVec 32

/-- The index of an element register G0..G15 (R32, R109). -/
abbrev RegIdx := Fin 16

/-- An LMEM byte address as a command or a DEC register holds it: 10 bits, 0..1023 (R37, R109). -/
abbrev LmemAddr := BitVec 10

/-- A byte offset into the 4 KiB host port window (R70). -/
abbrev PortOffset := BitVec 12

end Sys2Proof
end

