-- ==== Sys2Proof/Syntax.lean ====
section
/-! DEFINITION. The commands of GF8DEC, one constructor per row of spec/opcode_table.json (30_encoding.md R108), and the
assembler statements of R114 and R115, whose operands are the numbers a program text may hold. -/

namespace Sys2Proof

/-- A decoded command. Every operand has the width of its field (R109), so every value of this type is well formed:
what can be out of range is an assembler operand (`Asm`, `Asm.wellFormed`). -/
inductive Instr where
  /-- Field add and subtract, Format R (40_field_arith.md R145). -/
  | gadd (rd ra rb : RegIdx)
  /-- Field multiply, Format R (40_field_arith.md R146). -/
  | gmul (rd ra rb : RegIdx)
  /-- Field inverse, Format U (40_field_arith.md R147). -/
  | ginv (rd ra : RegIdx)
  /-- Polynomial evaluation, Format P (41_poly_eval.md R172). -/
  | peval (rd rx : RegIdx) (deg : BitVec 8) (base : LmemAddr)
  /-- Erasure decode, Format D (42_decoder.md R200). -/
  | dece
  /-- Berlekamp-Welch decode, Format D (42_decoder.md R210). -/
  | decbw
  /-- Load an immediate element, Format I (43_data_move.md R240). -/
  | gldi (rd : RegIdx) (imm : Elem)
  /-- Load an element from LMEM, Format M (43_data_move.md R241). -/
  | gld (rd : RegIdx) (addr : LmemAddr)
  /-- Store an element to LMEM, Format M: the RD field names the source (43_data_move.md R242). -/
  | gst (rs : RegIdx) (addr : LmemAddr)
deriving DecidableEq, Repr

/-- An assembler statement (R114) or pseudo-instruction (R115), with the operands a source text may hold. -/
inductive Asm where
  | gadd (d a b : Nat)
  | gmul (d a b : Nat)
  | ginv (d a : Nat)
  | peval (d x deg base : Nat)
  | dece
  | decbw
  | gldi (d imm : Nat)
  | gld (d addr : Nat)
  | gst (s addr : Nat)
  /-- GSUB Gd, Ga, Gb: GADD Gd, Ga, Gb. -/
  | gsub (d a b : Nat)
  /-- GCLR Gd: GADD Gd, Gd, Gd. -/
  | gclr (d : Nat)
  /-- GSQR Gd, Ga: GMUL Gd, Ga, Ga. -/
  | gsqr (d a : Nat)
deriving DecidableEq, Repr

end Sys2Proof
end

