-- ==== Sys2Proof/Decode.lean ====
section
/-! DEFINITION. Decoding of the 32-bit command word (30_encoding.md R101 to R111, R117), total on every word and rejecting
by name; then the encoder, and the opcode map of R108 as rows of match and mask. -/

namespace Sys2Proof

/-- Why a word is ILLEGAL. -/
inductive IllegalReason where
  /-- One of the 55 reserved opcodes (R111). -/
  | reservedOpcode
  /-- An assigned opcode with a bit set that its format does not assign (R110). -/
  | reservedBits
deriving DecidableEq, Repr

/-- What a command word is: a command, or illegal for a reason. -/
inductive Decoded where
  | instr (i : Instr)
  | illegal (why : IllegalReason)
deriving DecidableEq, Repr

/-- OPC, bits [31:26] (R101). -/
def opcField (w : Word) : BitVec 6 := w.extractLsb' 26 6

/-- RD, bits [25:22] (R101). -/
def rdField (w : Word) : RegIdx := (w.extractLsb' 22 4).toFin

/-- RA and RX, bits [21:18] (R101, R104). -/
def raField (w : Word) : RegIdx := (w.extractLsb' 18 4).toFin

/-- RB, bits [17:14] (R101). -/
def rbField (w : Word) : RegIdx := (w.extractLsb' 14 4).toFin

/-- DEG, bits [17:10] (R101). -/
def degField (w : Word) : BitVec 8 := w.extractLsb' 10 8

/-- BASE and ADDR, bits [9:0] (R101). -/
def addrField (w : Word) : LmemAddr := w.extractLsb' 0 10

/-- IMM8, bits [7:0] (R101). -/
def immField (w : Word) : Elem := w.extractLsb' 0 8

/-- The command `i`, unless a reserved bit (those of `rsv`) of the word is set (R110, R117). -/
def unlessReserved (w rsv : Word) (i : Instr) : Decoded :=
  if w &&& rsv = 0 then .instr i else .illegal .reservedBits

/-- The decode procedure of R117. -/
def decode (w : Word) : Decoded :=
  match (opcField w).toNat with
  | 0x01 => unlessReserved w 0x00003FFF (.gadd (rdField w) (raField w) (rbField w))
  | 0x02 => unlessReserved w 0x00003FFF (.gmul (rdField w) (raField w) (rbField w))
  | 0x03 => unlessReserved w 0x0003FFFF (.ginv (rdField w) (raField w))
  | 0x04 => unlessReserved w 0x00000000 (.peval (rdField w) (raField w) (degField w) (addrField w))
  | 0x05 => unlessReserved w 0x03FFFFFF .dece
  | 0x06 => unlessReserved w 0x03FFFFFF .decbw
  | 0x10 => unlessReserved w 0x003FFF00 (.gldi (rdField w) (immField w))
  | 0x11 => unlessReserved w 0x003FFC00 (.gld (rdField w) (addrField w))
  | 0x12 => unlessReserved w 0x003FFC00 (.gst (rdField w) (addrField w))
  | _ => .illegal .reservedOpcode

/-- A field of a command word: `v` with its lowest bit at bit `lo`, all other bits 0. -/
def field (v : BitVec n) (lo : Nat) : Word := v.setWidth 32 <<< lo

/-- A register index in a 4-bit field. -/
def regField (r : RegIdx) (lo : Nat) : Word := field (BitVec.ofFin r : BitVec 4) lo

/-- The word of a command: the formats of R102 to R107 with the opcodes of R108, unassigned bits 0. -/
def encode : Instr → Word
  | .gadd rd ra rb => field 0x01#6 26 ||| regField rd 22 ||| regField ra 18 ||| regField rb 14
  | .gmul rd ra rb => field 0x02#6 26 ||| regField rd 22 ||| regField ra 18 ||| regField rb 14
  | .ginv rd ra => field 0x03#6 26 ||| regField rd 22 ||| regField ra 18
  | .peval rd rx deg base => field 0x04#6 26 ||| regField rd 22 ||| regField rx 18 ||| field deg 10 ||| field base 0
  | .dece => field 0x05#6 26
  | .decbw => field 0x06#6 26
  | .gldi rd imm => field 0x10#6 26 ||| regField rd 22 ||| field imm 0
  | .gld rd addr => field 0x11#6 26 ||| regField rd 22 ||| field addr 0
  | .gst rs addr => field 0x12#6 26 ||| regField rs 22 ||| field addr 0

/-- A row of the opcode map (R108). -/
structure OpcodeRow where
  mnemonic : String
  matchWord : Word
  maskWord : Word
deriving DecidableEq, Repr

/-- The assigned rows of the opcode map (R108). -/
def opcodeMap : List OpcodeRow := [
  ⟨"GADD", 0x04000000, 0xFC003FFF⟩,
  ⟨"GMUL", 0x08000000, 0xFC003FFF⟩,
  ⟨"GINV", 0x0C000000, 0xFC03FFFF⟩,
  ⟨"PEVAL", 0x10000000, 0xFC000000⟩,
  ⟨"DECE", 0x14000000, 0xFFFFFFFF⟩,
  ⟨"DECBW", 0x18000000, 0xFFFFFFFF⟩,
  ⟨"GLDI", 0x40000000, 0xFC3FFF00⟩,
  ⟨"GLD", 0x44000000, 0xFC3FFC00⟩,
  ⟨"GST", 0x48000000, 0xFC3FFC00⟩]

/-- A word encodes a row's instruction exactly when `(w & mask) = match` (R108). -/
def OpcodeRow.selects (row : OpcodeRow) (w : Word) : Bool := w &&& row.maskWord == row.matchWord

/-- The mnemonic of a command, as R108 spells it. -/
def Instr.mnemonic : Instr → String
  | .gadd .. => "GADD"
  | .gmul .. => "GMUL"
  | .ginv .. => "GINV"
  | .peval .. => "PEVAL"
  | .dece => "DECE"
  | .decbw => "DECBW"
  | .gldi .. => "GLDI"
  | .gld .. => "GLD"
  | .gst .. => "GST"

/-- The command in a word, if it holds one. -/
def Decoded.toOption : Decoded → Option Instr
  | .instr i => some i
  | .illegal _ => none

/-- The host's reading of the decoder: the command in the low `nbits` bits of `w`, all higher bits 0. A command is one
32-bit word with no byte order (20_memory.md R75), so the word is taken whole. -/
def decodeTableWord (nbits w : Nat) : Option Instr :=
  (decode (BitVec.ofNat 32 (w % 2 ^ nbits))).toOption

end Sys2Proof
end

