-- ==== Sys2Proof/Config.lean ====
section
/-! DEFINITION. What an implementation of GF8DEC fixes, and the free values of the spec. A free value is an opaque
constant: it has no body a proof could see, so a claim about it holds whatever it is. Where a fresh value is needed
for each use, the constant takes the plain counter `draws` of State. -/

namespace Sys2Proof.Config

/-- The size of LMEM in bytes (10_state.md R37). -/
def lmemSize : Nat := 1024

/-- The highest x-value an output point may have (42_decoder.md R192): 255. -/
def maxElem : Nat := 255

/-- The constant that the ID register reads as: "GF8" and version 1 (10_state.md R47, 00_scope.md R2). -/
def idWord : Word := 0x47463801

/-- LAT (70_reset_and_hazards.md R310): how many steps of the BUSY window pass before the completion step of the command
accepted at draw `draw` with the word `cmd`. OPEN in the spec (92 D33). The draw index differs for every acceptance of
a run, so the value may depend on anything the operands hold (log 3). -/
opaque lat (draw : Nat) (cmd : Word) : Nat

/-- INIT_TIME (70_reset_and_hazards.md R302): how many steps BUSY reads 1 after the reset at draw `draw`. OPEN in the
spec (92 D32), and possibly 0 (log 4). -/
opaque initTime (draw : Nat) : Nat

/-- What the LMEM byte at `addr` reads as while nothing has written it since reset (10_state.md R38): any value
(log 5). -/
opaque unwrittenByte (draw addr : Nat) : Elem

/-- What the port drives when Gi or an LMEM word is read while BUSY = 1 (70_reset_and_hazards.md R308): any value
(log 6). -/
opaque busyRead (draw : Nat) : Word

/-- The entry LOG[0], which has no value and which no rule reads (10_state.md R35; log 13). -/
opaque logOfZero : Elem

end Sys2Proof.Config
end

