-- ==== Sys2Proof/Machine/State.lean ====
section
/-! DEFINITION. The state of GF8DEC (10_state.md), as plain data: the registers, LMEM, the hidden state of a command in flight,
the port's outputs, and the model's own two fields (the outside world's pending events and the draw counter). -/

namespace Sys2Proof.Machine

/-- The result codes (60_exceptions.md R261). Codes 7 to 15 are reserved and never produced, so they have no value here
(log 16). -/
inductive ResultCode where
  | ok | illegal | zeroInverse | param | addrRange | insufficient | unsolvable
deriving DecidableEq, Repr

/-- The decoder parameter registers DEC_X, DEC_Y, DEC_O and DEC_MK, field by field (10_state.md R48 to R51), and the shape
of their snapshot PARAMS (R53). -/
structure Params where
  xbase : LmemAddr
  ybase : LmemAddr
  obase : LmemAddr
  m : BitVec 8
  k : BitVec 8
  f : BitVec 8
deriving DecidableEq, Repr

/-- A write that a command has computed and not yet committed (10_state.md R53): to an element register, or to the LMEM
byte at an address, which the command's own checks keep at or below 1023. -/
inductive Write where
  | reg (i : RegIdx) (v : Elem)
  | mem (addr : Nat) (v : Elem)
deriving DecidableEq, Repr

/-- The command in flight (10_state.md R46, R53): the latch CL, the snapshot PARAMS, and how many steps of its BUSY window
are left before its completion step (70_reset_and_hazards.md R310). -/
structure Flight where
  cl : Word
  params : Params
  wait : Nat
deriving DecidableEq, Repr

/-- What the core is doing. -/
inductive Phase where
  /-- No command in flight: BUSY = 0. -/
  | idle
  /-- The initialisation window after reset (70_reset_and_hazards.md R302): BUSY = 1 for this step and `left` more. -/
  | init (left : Nat)
  /-- A command in flight: BUSY = 1. -/
  | running (f : Flight)
deriving DecidableEq, Repr

/-- The phase at the release of reset, for an initialisation window of `n` steps, which may be 0 (R302). -/
def Phase.window : Nat → Phase
  | 0 => .idle
  | n + 1 => .init n

/-- An event of the outside world (log 1): a transaction on the register port (20_memory.md R73, R86), the host's
polling loop (30_encoding.md R116), or reset (70_reset_and_hazards.md R300). -/
inductive HostEvent where
  /-- A read of the word at a byte offset. -/
  | read (off : PortOffset)
  /-- A write of a word to a byte offset. -/
  | write (off : PortOffset) (data : Word)
  /-- POLL: read STATUS, and again while it returns BUSY = 1. -/
  | poll
  /-- The assertion of `rst`. -/
  | reset
deriving DecidableEq, Repr

/-- LMEM: the bytes written since reset, by rising address. An address that is not listed is unwritten (10_state.md R38),
and no entry is ever that. -/
abbrev Memory := List Host.Cell

/-- The reasons for which a step stops with a fault: none. GF8DEC has no traps (60_exceptions.md R260): every failure is a
result code, and the machine goes on. Raised by nobody (log 23). -/
inductive Fault : Type where
deriving DecidableEq, Repr

/-- The reasons for which a step is refused. -/
inductive Refusal where
  /-- Raised only by an arm of `exec` for an instruction that has no meaning yet; safe. No arm raises it. -/
  | notModelled (mnemonic : String)
deriving DecidableEq, Repr

/-- The state of GF8DEC. -/
structure State where
  /-- G0..G15 (10_state.md R32). -/
  g : Vector Elem 16
  /-- LMEM (10_state.md R37, R38). -/
  lmem : Memory
  /-- DEC_X, DEC_Y, DEC_O, DEC_MK (10_state.md R48 to R51). -/
  dec : Params
  /-- STATUS.LERR (10_state.md R42). -/
  lerr : ResultCode
  /-- STATUS.FERR (10_state.md R43). -/
  ferr : ResultCode
  /-- STATUS.OVR (10_state.md R44). -/
  ovr : Bool
  /-- What the core is doing: STATUS.BUSY, CL and PARAMS (10_state.md R41, R53). -/
  phase : Phase
  /-- The staged writes of the command in flight (10_state.md R53). -/
  staged : List Write
  /-- The port output `prdata`: the data of the last read performed (20_memory.md R86, log 10). -/
  prdata : Word
  /-- The port output `pready`: the last step performed a transaction (20_memory.md R86, log 10). -/
  pready : Bool
  /-- The model's own: what the outside world will do, next event first (log 1). -/
  host : List HostEvent
  /-- The model's own: how many draws of free values have been closed (log 7). -/
  draws : Nat
deriving DecidableEq, Repr

/-- All parameters 0 (10_state.md R55). -/
def Params.zero : Params := { xbase := 0, ybase := 0, obase := 0, m := 0, k := 0, f := 0 }

/-- The machine right after reset (10_state.md R55, 70_reset_and_hazards.md R300 to R302): every register 0, LMEM unwritten,
no command in flight, and the initialisation window open for its unknown time. -/
def State.reset : State where
  g := Vector.replicate 16 0
  lmem := []
  dec := Params.zero
  lerr := .ok
  ferr := .ok
  ovr := false
  phase := Phase.window (Config.initTime 0)
  staged := []
  prdata := 0
  pready := false
  host := []
  draws := 0

end Sys2Proof.Machine
end

