-- ==== Sys2Proof/Machine/Flags.lean ====
section
/-! DEFINITION. STATUS: its word, BUSY, and every rule that changes LERR, FERR and OVR (10_state.md R40 to R45). GF8DEC has no
other flags (R54). -/

namespace Sys2Proof.Machine

/-- The 4-bit value of a result code (60_exceptions.md R261). -/
def ResultCode.bits : ResultCode → BitVec 4
  | .ok => 0
  | .illegal => 1
  | .zeroInverse => 2
  | .param => 3
  | .addrRange => 4
  | .insufficient => 5
  | .unsolvable => 6

/-- BUSY: a command is in flight, or the initialisation window is open (10_state.md R40, R41). -/
def State.busy (s : State) : Bool :=
  match s.phase with
  | .idle => false
  | .init _ => true
  | .running _ => true

/-- The initialisation window after reset is open (70_reset_and_hazards.md R302). -/
def State.inWindow (s : State) : Bool :=
  match s.phase with
  | .idle => false
  | .init _ => true
  | .running _ => false

/-- STATUS as the host reads it (10_state.md R40): BUSY [0], LERR [11:8], FERR [19:16], OVR [24], all other bits 0. -/
def State.statusWord (s : State) : Word :=
  0#7 ++ BitVec.ofBool s.ovr ++ 0#4 ++ s.ferr.bits ++ 0#4 ++ s.lerr.bits ++ 0#7 ++ BitVec.ofBool s.busy

/-- The update of LERR and FERR by a completion with `code` (10_state.md R42, R43; 60_exceptions.md R263). -/
def State.recordResult (code : ResultCode) (s : State) : State :=
  { s with lerr := code, ferr := if code ≠ .ok ∧ s.ferr = .ok then code else s.ferr }

/-- CTRL.CLR_ERR: clear LERR, FERR and OVR in one step (10_state.md R45). -/
def State.clearErrors (s : State) : State := { s with lerr := .ok, ferr := .ok, ovr := false }

/-- A write dropped because BUSY = 1 (10_state.md R44): OVR is set, and nothing else changes. -/
def State.setOvr (s : State) : State := { s with ovr := true }

end Sys2Proof.Machine
end

