-- ==== Sys2Proof/Machine/Memory.lean ====
section
/-! DEFINITION. LMEM as a list of cells in one canonical form: reading and writing one byte (00_scope.md R10). Every wider
access is made of these two. -/

namespace Sys2Proof.Machine

/-- The canonical form: addresses strictly rising and inside LMEM. An unlisted address is unwritten, which no entry is, so
equal memories are equal lists. -/
abbrev Memory.wf (m : Memory) : Prop :=
  m.Pairwise (fun c d => c.1 < d.1) ∧ ∀ c ∈ m, c.1 < Config.lmemSize

/-- The byte written at `a` since reset, or `none` while the byte is unwritten (10_state.md R38). -/
def Memory.read (a : Nat) : Memory → Option Elem
  | [] => none
  | (b, v) :: rest => if b = a then some v else Memory.read a rest

/-- Insert a byte at its place, replacing an entry of the same address. -/
def Memory.insert (a : Nat) (v : Elem) : Memory → Memory
  | [] => [(a, v)]
  | (b, w) :: rest =>
    if a < b then (a, v) :: (b, w) :: rest
    else if a = b then (a, v) :: rest
    else (b, w) :: Memory.insert a v rest

/-- MemWrite(a, 1, v) (00_scope.md R10). LMEM has the addresses 0..1023 (10_state.md R37) and no others; no command and no
port access writes elsewhere (20_memory.md R79; log 18). -/
def Memory.write (a : Nat) (v : Elem) (m : Memory) : Memory :=
  if a < Config.lmemSize then Memory.insert a v m else m

end Sys2Proof.Machine
end

