-- ==== Sys2Proof/Machine/Ops.lean ====
section
/-! DEFINITION. The shared operations: reading operands, accepting a command, staging and committing its writes, and ending it
with a result code. GF8DEC takes no exceptions (60_exceptions.md R260, R269, R270): `State.complete` with a non-zero code
is what stands in the place of exception entry, and there is nothing to return from. -/

namespace Sys2Proof.Machine

/-- What every command answers: GF8DEC never stops. -/
abbrev Answer := Host.Outcome State Fault Refusal

/-- `x[i]`: element register Gi (00_scope.md R10, 10_state.md R32). -/
def State.readReg (s : State) (i : RegIdx) : Elem := s.g[i]

/-- `x[i] <- v` (00_scope.md R10). -/
def State.writeReg (i : RegIdx) (v : Elem) (s : State) : State := { s with g := s.g.set i v }

/-- MemRead(a, 1) (00_scope.md R10): the byte written at `a`, or a free value while the byte is unwritten (10_state.md R38;
log 5). -/
def State.loadByte (s : State) (a : Nat) : Elem :=
  match Memory.read a s.lmem with
  | some v => v
  | none => Config.unwrittenByte s.draws a

/-- MemWrite(a, 1, v) (00_scope.md R10). -/
def State.storeByte (a : Nat) (v : Elem) (s : State) : State := { s with lmem := Memory.write a v s.lmem }

/-- PARAMS (10_state.md R53): the snapshot of the command in flight; empty where none is. -/
def State.snapshot (s : State) : Option Params :=
  match s.phase with
  | .idle => none
  | .init _ => none
  | .running f => some f.params

/-- The parameters a decode uses: PARAMS (42_decoder.md R191). A command runs only in flight; where there is none, the
snapshot that accepting it now would take (log 12). -/
def State.operands (s : State) : Params := s.snapshot.getD s.dec

/-- Accept the command word `w` (10_state.md R46, R53): latch it, take the snapshot, set BUSY. -/
def State.accept (w : Word) (s : State) : State :=
  { s with phase := .running { cl := w, params := s.dec, wait := Config.lat s.draws w } }

/-- Commit one staged write. -/
def State.applyWrite (s : State) : Write → State
  | .reg i v => s.writeReg i v
  | .mem a v => s.storeByte a v

/-- Commit the staged writes, in the order they were staged (20_memory.md R76). -/
def State.commit (s : State) : State := s.staged.foldl State.applyWrite s

/-- The completion step with a result code (60_exceptions.md R263): the staged writes are committed only when the code is OK
(R264), LERR and FERR are updated, BUSY is cleared, and CL, PARAMS and the staged writes become empty. It closes the
command's draw of free values (log 7). -/
def State.complete (code : ResultCode) (s : State) : State :=
  let c := if code = .ok then s.commit else s
  { c.recordResult code with phase := .idle, staged := [], draws := c.draws + 1 }

/-- Stage the writes a command has computed (10_state.md R53). -/
def State.stage (ws : List Write) (s : State) : State := { s with staged := ws }

/-- End a command (60_exceptions.md R262): with OK and the writes its pseudocode computed, or, where the pseudocode raised
`Error(code)`, with that code and none of its writes. -/
def State.finish (s : State) : Except ResultCode (List Write) → State
  | .ok ws => (s.stage ws).complete .ok
  | .error code => s.complete code

/-- Run the body of a command (00_scope.md R11): it reads its operands and computes in `s`, and its end is the completion
step. -/
def State.runCommand (s : State) (body : State → Except ResultCode (List Write)) : Answer :=
  .next (s.finish (body s))

/-- The end of a word that is no command (60_exceptions.md R265): ILLEGAL, and no other effect. -/
def State.completeIllegal (s : State) : Answer := .next (s.complete .illegal)

/-- Reset, with `rest` of the outside world's events to come (70_reset_and_hazards.md R300 to R303): every piece of state
takes its reset value, whatever the block was doing. LMEM and the initialisation time are drawn anew (log 7, 19). -/
def State.resetBy (rest : List HostEvent) (s : State) : State :=
  { State.reset with
    phase := Phase.window (Config.initTime (s.draws + 1))
    draws := s.draws + 1
    host := rest }

end Sys2Proof.Machine
end

