-- ==== Sys2Proof/Machine/Poly.lean ====
section
/-! DEFINITION. Polynomials over GF(2^8) as coefficient lists, constant term first: evaluation (41_poly_eval.md R171), powers
of a point (42_decoder.md R201) and division by a monic polynomial (42_decoder.md R213). -/

namespace Sys2Proof.Machine

/-- Horner's rule (41_poly_eval.md R171): the highest coefficient, then times x plus the next lower one, down to c0. The
rule's first step, from the highest coefficient alone, is here `0·x + cd`. -/
def horner : List Elem → Elem → Elem
  | [], _ => 0
  | c :: cs, x => gadd (gmul (horner cs x) x) c

/-- The list `[acc, acc·x, acc·x², …]` of `n` elements. -/
def powersFrom (acc x : Elem) : Nat → List Elem
  | 0 => []
  | n + 1 => acc :: powersFrom (gmul acc x) x n

/-- The row `[1, x, x², …, x^(n-1)]` of the Vandermonde matrix (42_decoder.md R201). -/
def powers (x : Elem) (n : Nat) : List Elem := powersFrom 1 x n

/-- Add `q·e` into the leading coefficients of `rest`, where `rest` may be longer than `e`. -/
def addLeading (q : Elem) : List Elem → List Elem → List Elem
  | r :: rs, e :: es => gadd r (gmul q e) :: addLeading q rs es
  | rs, [] => rs
  | [], _ => []

/-- Long division, highest coefficient first: `n` quotient coefficients of `q` by the monic polynomial whose lower
coefficients are `e`. Since the divisor is monic no inverse is needed (42_decoder.md R213). -/
def divMonic (e : List Elem) : Nat → List Elem → List Elem × List Elem
  | 0, q => ([], q)
  | _ + 1, [] => ([], [])
  | n + 1, c :: cs =>
    let r := divMonic e n (addLeading c cs e)
    (c :: r.1, r.2)

/-- PolyDivMod(Q, E) (42_decoder.md R213): the `n` coefficients of the quotient P and the remainder R of Q by
`E = z^e + ε(e-1)·z^(e-1) + … + ε0`, all constant term first; `eps` is [ε0, …, ε(e-1)]. -/
def polyDivMod (n : Nat) (q eps : List Elem) : List Elem × List Elem :=
  let r := divMonic eps.reverse n q.reverse
  (r.1.reverse, r.2.reverse)

end Sys2Proof.Machine
end

