-- ==== Sys2Proof/Machine/Operands.lean ====
section
/-! DEFINITION. Operand forms: runs of LMEM bytes and their range checks (20_memory.md R74, R79), the operand list of the
decodes with their common checks (42_decoder.md R191, R192), and the host port map (20_memory.md R71 to R73). -/

namespace Sys2Proof.Machine

/-- A run of `n` ≥ 1 bytes from `base` ends beyond address 1023 (20_memory.md R79): exact integers, no wrap-around. -/
def runsPast (base : LmemAddr) (n : Nat) : Bool := base.toNat + n - 1 > Config.lmemSize - 1

/-- A run of `n` LMEM bytes at rising addresses from `base` (20_memory.md R74). -/
def State.loadRun (s : State) (base : LmemAddr) (n : Nat) : List Elem :=
  (List.range n).map fun i => s.loadByte (base.toNat + i)

/-- What a decode works on once its checks have passed (42_decoder.md R191, R192). -/
structure DecodeInput where
  x : List Elem
  y : List Elem
  k : Nat
  f : Nat
  obase : LmemAddr
deriving DecidableEq, Repr

/-- The elements are pairwise distinct: the double loop over i < j (42_decoder.md R192). -/
def pairwiseDistinct : List Elem → Bool
  | [] => true
  | x :: xs => !xs.contains x && pairwiseDistinct xs

/-- DecodeCommon (42_decoder.md R192): the checks in their order, the first that fails giving its code, then the lists. -/
def State.decodeCommon (s : State) : Except ResultCode DecodeInput :=
  let p := s.operands
  let m := p.m.toNat
  let k := p.k.toNat
  let f := p.f.toNat
  if k = 0 then .error .param
  else if m < k then .error .insufficient
  else if f + k - 1 > Config.maxElem then .error .param
  else if runsPast p.xbase m || runsPast p.ybase m || runsPast p.obase k then .error .addrRange
  else
    let x := s.loadRun p.xbase m
    if x.contains 0 then .error .param
    else if !pairwiseDistinct x then .error .param
    else .ok { x := x, y := s.loadRun p.ybase m, k := k, f := f, obase := p.obase }

/-- The K output writes of a decode whose polynomial has the coefficients `p` (42_decoder.md R193): the evaluation at the
integer F + j, taken as an element, to OB + j. -/
def DecodeInput.outputs (d : DecodeInput) (p : List Elem) : List Write :=
  (List.range d.k).map fun j => .mem (d.obase.toNat + j) (horner p (BitVec.ofNat 8 (d.f + j)))

/-- The registers of the host port map (20_memory.md R71). -/
inductive PortReg where
  | id | ctrl | status | cmd | decX | decY | decO | decMk
  | reg (i : RegIdx)
  /-- The word of the LMEM window that covers bytes 4w to 4w+3 (R72). -/
  | lmem (w : BitVec 8)
  | unassigned
deriving DecidableEq, Repr

/-- The register at a byte offset; bits [1:0] of the offset are ignored (20_memory.md R71, R73). -/
def portReg (off : PortOffset) : PortReg :=
  let o := (off &&& 0xFFC).toNat
  if o = 0x000 then .id
  else if o = 0x004 then .ctrl
  else if o = 0x008 then .status
  else if o = 0x00C then .cmd
  else if o = 0x010 then .decX
  else if o = 0x014 then .decY
  else if o = 0x018 then .decO
  else if o = 0x01C then .decMk
  else if 0x040 ≤ o ∧ o ≤ 0x07C then .reg (Fin.ofNat 16 ((o - 0x040) / 4))
  else if 0x400 ≤ o ∧ o ≤ 0x7FC then .lmem (BitVec.ofNat 8 ((o - 0x400) / 4))
  else .unassigned

/-- Byte `i` of a port word in the little-endian LMEM window (20_memory.md R72): bits [8i+7:8i]. -/
def wordByte (data : Word) (i : Nat) : Elem := data.extractLsb' (8 * i) 8

/-- The LMEM window word `w` as it stands (20_memory.md R72). -/
def State.windowWord (s : State) (w : BitVec 8) : Word :=
  s.loadByte (4 * w.toNat + 3) ++ s.loadByte (4 * w.toNat + 2) ++ s.loadByte (4 * w.toNat + 1) ++ s.loadByte (4 * w.toNat)

/-- A write of the LMEM window word `w`: all four bytes (20_memory.md R72). -/
def State.writeWindow (w : BitVec 8) (data : Word) (s : State) : State :=
  (((s.storeByte (4 * w.toNat) (wordByte data 0)).storeByte (4 * w.toNat + 1) (wordByte data 1)).storeByte
    (4 * w.toNat + 2) (wordByte data 2)).storeByte (4 * w.toNat + 3) (wordByte data 3)

/-- DEC_MK as the host reads it: M [7:0], K [15:8], F [23:16], the rest 0 (10_state.md R51). -/
def Params.mkWord (p : Params) : Word := 0#8 ++ p.f ++ p.k ++ p.m

end Sys2Proof.Machine
end

