-- ==== Sys2Proof/Machine/DataMove.lean ====
section
/-! DEFINITION. GLDI, GLD and GST (43_data_move.md R240 to R242). -/

namespace Sys2Proof.Machine

/-- GLDI (R240). -/
def execGldi (rd : RegIdx) (imm : Elem) (s : State) : Answer :=
  s.runCommand fun _ => .ok [.reg rd imm]

/-- GLD (R241): one byte, no extension. -/
def execGld (rd : RegIdx) (addr : LmemAddr) (s : State) : Answer :=
  s.runCommand fun s => .ok [.reg rd (s.loadByte addr.toNat)]

/-- GST (R242): one byte; RD names the source. -/
def execGst (rs : RegIdx) (addr : LmemAddr) (s : State) : Answer :=
  s.runCommand fun s => .ok [.mem addr.toNat (s.readReg rs)]

end Sys2Proof.Machine
end

