-- ==== Sys2Proof/Machine/LinearSystem.lean ====
section
/-! DEFINITION. Linear systems over GF(2^8), solved by Gauss elimination with a normalised pivot (42_decoder.md R203): the one
solver that the erasure polynomial (R201) and the Berlekamp-Welch system (R212) use. -/

namespace Sys2Proof.Machine

/-- One linear equation: coefficients of the unknowns still to find, and the right side. -/
structure Equation where
  coeffs : List Elem
  rhs : Elem
deriving DecidableEq, Repr

/-- The sum of products of a row of coefficients with a list of values. -/
def dot : List Elem → List Elem → Elem
  | a :: as, b :: bs => gadd (gmul a b) (dot as bs)
  | _, _ => 0

/-- The values `v` solve the equation. -/
def Equation.holds (q : Equation) (v : List Elem) : Bool := dot q.coeffs v == q.rhs

/-- The coefficient of the first unknown. -/
def Equation.lead (q : Equation) : Elem := q.coeffs.headD 0

/-- The equation without its first unknown. -/
def Equation.dropLead (q : Equation) : Equation := { q with coeffs := q.coeffs.tail }

/-- The equation multiplied by `v`. -/
def Equation.scale (v : Elem) (q : Equation) : Equation :=
  { coeffs := q.coeffs.map (gmul v), rhs := gmul v q.rhs }

/-- The equation with its first unknown eliminated by the pivot `p`, whose own first coefficient is 1. -/
def Equation.eliminate (p q : Equation) : Equation :=
  { coeffs := List.zipWith (fun a b => gadd a (gmul q.lead b)) q.coeffs p.coeffs,
    rhs := gadd q.rhs (gmul q.lead p.rhs) }

/-- A pivot: the first equation whose first coefficient has an inverse, multiplied by that inverse (R203: "Normalize pivot
row"). -/
def pivotOf (eqs : List Equation) : Option Equation :=
  eqs.findSome? fun q => (ginv q.lead).map fun v => q.scale v

/-- A solution of the system in `n` unknowns, or `none` when it has none. An unknown that no equation determines is 0: where
the spec allows any solution (42_decoder.md R212) this is the one taken (log 14). -/
def solve : Nat → List Equation → Option (List Elem)
  | 0, eqs => if eqs.all fun q => q.rhs == 0 then some [] else none
  | n + 1, eqs =>
    match pivotOf eqs with
    | none => (solve n (eqs.map Equation.dropLead)).map fun v => 0 :: v
    | some p =>
      (solve n (eqs.map fun q => (p.eliminate q).dropLead)).map fun v =>
        gadd p.rhs (dot p.coeffs.tail v) :: v

end Sys2Proof.Machine
end

