-- ==== Sys2Proof/Machine/Decoder.lean ====
section
/-! DEFINITION. DECE and DECBW (42_decoder.md R190 to R216). -/

namespace Sys2Proof.Machine

/-- One row of `V·c = y` (R201). -/
def vandermondeRow (k : Nat) (x y : Elem) : Equation := { coeffs := powers x k, rhs := y }

/-- ErasurePoly (R201): the coefficients of the polynomial with fewer than `k` coefficients through the points. It always
exists for distinct points; a system without a solution would be DOC00's *unsolvable*, which R200 excludes (log 15). -/
def erasurePoly (x y : List Elem) (k : Nat) : Option (List Elem) :=
  solve k (List.zipWith (vandermondeRow k) x y)

/-- One row of the Berlekamp-Welch system (R212): the unknowns are q0..q(e+K-1), then ε0..ε(e-1). -/
def bwRow (k e : Nat) (x y : Elem) : Equation :=
  { coeffs := powers x (e + k) ++ (powers x e).map (gmul y), rhs := gmul y (gpow x e) }

/-- SolveBW (R212): the lower coefficients [ε0, …, ε(e-1)] of the monic error locator E, and the coefficients of Q; `none`
when the system of all M equations has no solution. -/
def solveBW (x y : List Elem) (k e : Nat) : Option (List Elem × List Elem) :=
  (solve (e + k + e) (List.zipWith (bwRow k e) x y)).map fun v => (v.drop (e + k), v.take (e + k))

/-- The error bound e = floor((M - K) / 2) (R211). -/
def errorBound (m k : Nat) : Nat := (m - k) / 2

/-- The message polynomial that DECBW recovers: SolveBW, then Q / E with remainder 0 (R210, R212, R213). -/
def bwPoly (x y : List Elem) (k : Nat) : Option (List Elem) :=
  match solveBW x y k (errorBound x.length k) with
  | none => none
  | some (eps, q) =>
    let r := polyDivMod k q eps
    if r.2.all fun c => c == 0 then some r.1 else none

/-- DECE's body (R200): the common checks, the erasure polynomial of the first K points (R204), the outputs. -/
def deceBody (s : State) : Except ResultCode (List Write) :=
  match s.decodeCommon with
  | .error code => .error code
  | .ok d =>
    match erasurePoly (d.x.take d.k) (d.y.take d.k) d.k with
    | some p => .ok (d.outputs p)
    | none => .error .unsolvable

/-- DECBW's body (R210): the common checks, the message polynomial of all M points, the outputs. -/
def decbwBody (s : State) : Except ResultCode (List Write) :=
  match s.decodeCommon with
  | .error code => .error code
  | .ok d =>
    match bwPoly d.x d.y d.k with
    | some p => .ok (d.outputs p)
    | none => .error .unsolvable

/-- DECE (R200). -/
def execDece (s : State) : Answer := s.runCommand deceBody

/-- DECBW (R210). -/
def execDecbw (s : State) : Answer := s.runCommand decbwBody

end Sys2Proof.Machine
end

