-- ==== Sys2Proof/Machine/FieldArith.lean ====
section
/-! DEFINITION. GADD, GMUL and GINV (40_field_arith.md R145 to R147). -/

namespace Sys2Proof.Machine

/-- GADD (R145). -/
def execGadd (rd ra rb : RegIdx) (s : State) : Answer :=
  s.runCommand fun s => .ok [.reg rd (gadd (s.readReg ra) (s.readReg rb))]

/-- GMUL (R146). -/
def execGmul (rd ra rb : RegIdx) (s : State) : Answer :=
  s.runCommand fun s => .ok [.reg rd (gmul (s.readReg ra) (s.readReg rb))]

/-- GINV (R147): ZERO_INVERSE when the operand is 0. -/
def execGinv (rd ra : RegIdx) (s : State) : Answer :=
  s.runCommand fun s =>
    match ginv (s.readReg ra) with
    | some v => .ok [.reg rd v]
    | none => .error .zeroInverse

end Sys2Proof.Machine
end

