-- ==== Sys2Proof/Machine/PolyEval.lean ====
section
/-! DEFINITION. PEVAL (41_poly_eval.md R170 to R172). -/

namespace Sys2Proof.Machine

/-- PEVAL (R172): ADDR_RANGE when BASE + DEG is beyond 1023, checked before any byte is read; else Horner's rule over
the DEG + 1 coefficients from BASE, constant term first (R170). -/
def execPeval (rd rx : RegIdx) (deg : BitVec 8) (base : LmemAddr) (s : State) : Answer :=
  s.runCommand fun s =>
    if runsPast base (deg.toNat + 1) then .error .addrRange
    else .ok [.reg rd (horner (s.loadRun base (deg.toNat + 1)) (s.readReg rx))]

end Sys2Proof.Machine
end

