-- ==== Sys2Proof/Machine/Dispatch.lean ====
section
/-! DEFINITION. One arm per command: the rule named for its opcode (30_encoding.md R108). -/

namespace Sys2Proof.Machine

def exec (i : Instr) (s : State) : Host.Outcome State Fault Refusal :=
  match i with
  | .gadd rd ra rb => Sys2Proof.Machine.execGadd rd ra rb s
  | .gmul rd ra rb => Sys2Proof.Machine.execGmul rd ra rb s
  | .ginv rd ra => Sys2Proof.Machine.execGinv rd ra s
  | .peval rd rx deg base => Sys2Proof.Machine.execPeval rd rx deg base s
  | .dece => Sys2Proof.Machine.execDece s
  | .decbw => Sys2Proof.Machine.execDecbw s
  | .gldi rd imm => Sys2Proof.Machine.execGldi rd imm s
  | .gld rd addr => Sys2Proof.Machine.execGld rd addr s
  | .gst rs addr => Sys2Proof.Machine.execGst rs addr s

end Sys2Proof.Machine
end

