-- ==== Sys2Proof/Machine/Port.lean ====
section
/-! DEFINITION. The host register port: what a read returns and what a write does at every offset, while BUSY = 0 and while
BUSY = 1 (10_state.md R33, R39 to R52; 20_memory.md R71 to R78; 70_reset_and_hazards.md R305 to R308). -/

namespace Sys2Proof.Machine

/-- What a read of a port register returns. Reads of Gi and LMEM while BUSY = 1 return a free value, whose bits [31:8] are
still 0 for Gi (70_reset_and_hazards.md R308); every other read is exact. -/
def State.portRead (s : State) : PortReg → Word
  | .id => Config.idWord
  | .ctrl => 0
  | .status => s.statusWord
  | .cmd => 0
  | .decX => s.dec.xbase.setWidth 32
  | .decY => s.dec.ybase.setWidth 32
  | .decO => s.dec.obase.setWidth 32
  | .decMk => s.dec.mkWord
  | .reg i => if s.busy then (wordByte (Config.busyRead s.draws) 0).setWidth 32 else (s.readReg i).setWidth 32
  | .lmem w => if s.busy then Config.busyRead s.draws else s.windowWord w
  | .unassigned => 0

/-- A write that the BUSY window protects against: performed while BUSY = 0, dropped with OVR while BUSY = 1 (10_state.md
R44; 70_reset_and_hazards.md R306, R307). -/
def State.unlessBusy (s : State) (write : State → State) : State := if s.busy then s.setOvr else write s

/-- What a write of `data` to a port register does (20_memory.md R71 with the register's own rule). -/
def State.portWrite (s : State) (data : Word) : PortReg → State
  | .id => s
  | .ctrl => if data.getLsbD 0 then s.clearErrors else s
  | .status => s
  | .cmd => s.unlessBusy (State.accept data)
  | .decX => s.unlessBusy fun s => { s with dec := { s.dec with xbase := data.setWidth 10 } }
  | .decY => s.unlessBusy fun s => { s with dec := { s.dec with ybase := data.setWidth 10 } }
  | .decO => s.unlessBusy fun s => { s with dec := { s.dec with obase := data.setWidth 10 } }
  | .decMk => s.unlessBusy fun s =>
      { s with dec := { s.dec with m := wordByte data 0, k := wordByte data 1, f := wordByte data 2 } }
  | .reg i => s.unlessBusy (State.writeReg i (wordByte data 0))
  | .lmem w => s.unlessBusy (State.writeWindow w data)
  | .unassigned => s

/-- The read transaction: drive `prdata` and `pready`; the machine's own state does not change (20_memory.md R78). It
closes the draw of the free values it may have returned (log 7). -/
def State.performRead (off : PortOffset) (s : State) : State :=
  { s with prdata := s.portRead (portReg off), pready := true, draws := s.draws + 1 }

/-- The write transaction. -/
def State.performWrite (off : PortOffset) (data : Word) (s : State) : State :=
  { s.portWrite data (portReg off) with pready := true }

/-- One STATUS read of the host's polling loop (30_encoding.md R116; log 20). -/
def State.performPoll (s : State) : State := { s with prdata := s.statusWord, pready := true }

/-- A step in which no transaction is performed. -/
def State.noTransaction (s : State) : State := { s with pready := false }

/-- The host's turn: its next transaction, if it asks for one. POLL stays pending while its STATUS read returns BUSY = 1.
A reset is taken by `step` before this (70_reset_and_hazards.md R303). -/
def State.hostTurn (s : State) : State :=
  match s.host with
  | [] => s.noTransaction
  | .read off :: rest => State.performRead off { s with host := rest }
  | .write off data :: rest => State.performWrite off data { s with host := rest }
  | .poll :: rest => State.performPoll { s with host := if s.busy then .poll :: rest else rest }
  | .reset :: rest => s.resetBy rest

/-- The passing of one step of a BUSY window (70_reset_and_hazards.md R302, R310). -/
def State.tick (s : State) : State :=
  match s.phase with
  | .idle => s
  | .init left => { s with phase := Phase.window left }
  | .running f => { s with phase := .running { f with wait := f.wait - 1 } }

end Sys2Proof.Machine
end

