-- ==== Sys2Proof/Machine/Run.lean ====
section
/-! DEFINITION. What one step of the machine does: one event (log 2). -/

namespace Sys2Proof.Machine

/-- The core's completion step on the latched word (30_encoding.md R117, 60_exceptions.md R262): decode it, and run the
command or end with ILLEGAL. -/
def runLatched (w : Word) (s : State) : Answer :=
  match decode w with
  | .instr i => exec i s
  | .illegal _ => s.completeIllegal

/-- One event. A reset overrides everything (70_reset_and_hazards.md R303). Otherwise, inside a BUSY window the host takes
its turn and the window runs on by one step; at the end of a command's window the core completes it, and no host
transaction is performed in that step (20_memory.md R77); and while BUSY = 0 the host takes its turn. -/
def runEvent (s : State) : Answer :=
  match s.host with
  | .reset :: rest => .next (s.resetBy rest)
  | _ =>
    match s.phase with
    | .idle => .next s.hostTurn
    | .init _ => .next s.hostTurn.tick
    | .running f =>
      if f.wait = 0 then runLatched f.cl s.noTransaction else .next s.hostTurn.tick

/-- The outside world's events without the resets that stand before all others. -/
def afterResets : List HostEvent → List HostEvent
  | .reset :: rest => afterResets rest
  | events => events

/-- The state at the end of the BUSY window of the command word `w`: accepted as a write of CMD accepts it (10_state.md R46),
with no reset pending first. -/
def State.latched (w : Word) (s : State) : State :=
  { s with phase := .running { cl := w, params := s.dec, wait := 0 }, host := afterResets s.host }

end Sys2Proof.Machine
end

