-- ==== Sys2Proof/Machine/Step.lean ====
section
/-! DEFINITION. The step of the machine, and how the host's interface places a command for it. -/

namespace Sys2Proof.Machine

/-- One step of the machine: one event (`runEvent`). -/
def step (s : State) : Host.Outcome State Fault Refusal := runEvent s

/-- `s` with the command word in the low `nbits` bits of `w` accepted and its BUSY window run out, so that the very next step
is that command's completion step (log 11). -/
def State.withFetchWord (s : State) (nbits w : Nat) : State := s.latched (BitVec.ofNat 32 (w % 2 ^ nbits))

end Sys2Proof.Machine
end

