-- ==== Sys2Proof/Machine/HostProgram.lean ====
section
/-! DEFINITION. The host-program notation of 30_encoding.md R116 as lists of the outside world's events. -/

namespace Sys2Proof.Machine

/-- The port offset of CMD (20_memory.md R71). -/
def cmdOffset : PortOffset := 0x00C

/-- The port offset of the LMEM window word that covers the byte at `addr`. -/
def windowOffset (addr : Nat) : PortOffset := BitVec.ofNat 12 (0x400 + addr)

/-- `W CMD, w` followed by POLL. -/
def issueWord (w : Word) : List HostEvent := [.write cmdOffset w, .poll]

/-- `C <assembly>`: `W CMD, <encoding>`, followed by POLL. -/
def issue (i : Instr) : List HostEvent := issueWord (encode i)

/-- `WL <addr>: b0 b1 …`: groups of four bytes, little-endian, the last one padded with 0x00. -/
def writeBytes (addr : Nat) : List Elem → List HostEvent
  | [] => []
  | [a] => [.write (windowOffset addr) (0#8 ++ 0#8 ++ 0#8 ++ a)]
  | [a, b] => [.write (windowOffset addr) (0#8 ++ 0#8 ++ b ++ a)]
  | [a, b, c] => [.write (windowOffset addr) (0#8 ++ c ++ b ++ a)]
  | a :: b :: c :: d :: rest => .write (windowOffset addr) (d ++ c ++ b ++ a) :: writeBytes (addr + 4) rest

end Sys2Proof.Machine
end

