-- ==== Sys2Proof/Safety.lean ====
section
/-! DEFINITION. What counts as a good state and a safe run, in the terms the claims use. -/

namespace Sys2Proof.Machine

/-- While the initialisation window is open nothing has happened since reset but dropped writes and reads: every register
still has its reset value, no LMEM byte is written, and LERR and FERR are 0 (70_reset_and_hazards.md R302, 10_state.md R55). -/
abbrev State.windowClean (s : State) : Prop :=
  s.inWindow = true →
    s.g = Vector.replicate 16 0 ∧ s.lmem = [] ∧ s.dec = Params.zero ∧ s.lerr = .ok ∧ s.ferr = .ok

/-- The snapshot PARAMS of the command in flight equals the registers it was taken from, because writes to them are dropped
while BUSY = 1 (10_state.md R53, 70_reset_and_hazards.md R307). -/
abbrev State.snapshotAgrees (s : State) : Prop := s.snapshot = none ∨ s.snapshot = some s.dec

/-- The invariant of the machine: LMEM is in canonical form, no write is staged between two steps, an error in LERR has a
first error in FERR (10_state.md R42, R43), the snapshot agrees with its registers, and the initialisation window is clean. -/
abbrev State.Inv (s : State) : Prop :=
  Memory.wf s.lmem ∧ s.staged = [] ∧ (s.lerr ≠ .ok → s.ferr ≠ .ok) ∧ s.snapshotAgrees ∧ s.windowClean

/-- The host has kept the BUSY protocol since reset or the last clear (10_state.md R44, 70_reset_and_hazards.md R305). -/
abbrev State.protocolKept (s : State) : Prop := s.ovr = false

/-- A BUSY window in which the host takes its turn is passing: the initialisation window is open, or a command is in flight
and its completion step is not due yet (10_state.md R41, 70_reset_and_hazards.md R302). -/
def State.inBusyWindow (s : State) : Bool :=
  match s.phase with
  | .idle => false
  | .init _ => true
  | .running f => f.wait ≠ 0

/-- The host acts inside a BUSY window. -/
abbrev State.hostInBusyWindow (s : State) : Prop := s.inBusyWindow = true

/-- The protected port words (10_state.md R44). -/
abbrev PortReg.isProtected (r : PortReg) : Prop :=
  r ∈ [PortReg.cmd, .decX, .decY, .decO, .decMk] ∨ (∃ i, r = .reg i) ∨ ∃ v, r = .lmem v

/-- The host's next transaction writes a protected port word (10_state.md R44). -/
def State.writesProtected (s : State) : Prop :=
  ∃ off w rest, s.host = .write off w :: rest ∧ (portReg off).isProtected

/-- The host's next transaction writes CTRL with CLR_ERR set (10_state.md R45). -/
def State.writesClear (s : State) : Prop :=
  ∃ off w rest, s.host = .write off w :: rest ∧ portReg off = .ctrl ∧ w.getLsbD 0 = true

/-- The element register a command writes when it completes with OK. -/
def destReg : Instr → Option RegIdx
  | .gadd rd _ _ => some rd
  | .gmul rd _ _ => some rd
  | .ginv rd _ => some rd
  | .peval rd _ _ _ => some rd
  | .dece => none
  | .decbw => none
  | .gldi rd _ => some rd
  | .gld rd _ => some rd
  | .gst _ _ => none

/-- The LMEM addresses a command stores to when it completes with OK: GST's ADDR (43_data_move.md R242), and OB + j for j < K
of a decode (42_decoder.md R193). -/
def storeAddrs (s : State) : Instr → List Nat
  | .gadd .. => []
  | .gmul .. => []
  | .ginv .. => []
  | .peval .. => []
  | .dece => (List.range s.operands.k.toNat).map fun j => s.operands.obase.toNat + j
  | .decbw => (List.range s.operands.k.toNat).map fun j => s.operands.obase.toNat + j
  | .gldi .. => []
  | .gld .. => []
  | .gst _ addr => [addr.toNat]

/-- The result codes a command may complete with (60_exceptions.md R261, 42_decoder.md R200, R210). -/
def codesOf : Instr → List ResultCode
  | .gadd .. => [.ok]
  | .gmul .. => [.ok]
  | .ginv .. => [.ok, .zeroInverse]
  | .peval .. => [.ok, .addrRange]
  | .dece => [.ok, .param, .insufficient, .addrRange]
  | .decbw => [.ok, .param, .insufficient, .addrRange, .unsolvable]
  | .gldi .. => [.ok]
  | .gld .. => [.ok]
  | .gst .. => [.ok]

/-- The number of points at which the polynomial `p` differs from the y-values (42_decoder.md R214). -/
def disagreements (p : List Elem) : List Elem → List Elem → Nat
  | x :: xs, y :: ys => (if horner p x = y then 0 else 1) + disagreements p xs ys
  | _, _ => 0

/-- A safe run of `k` steps: it never stops, and it ends in a good state. -/
def SafeRun (k : Nat) (s : State) : Prop := ∃ t : State, Sys2Proof.core.run k s = .next t ∧ t.Inv

end Sys2Proof.Machine
end

