-- ==== Sys2Proof/WellFormed.lean ====
section
/-! DEFINITION. Well-formedness of assembler statements (30_encoding.md R114): an operand out of its range is refused,
never truncated; and what a statement assembles to, with the expansions of R115. -/

namespace Sys2Proof

/-- A register operand: G0 to G15. -/
def Asm.regOk (r : Nat) : Bool := r < 16

/-- An 8-bit operand: an immediate or a degree, 0..255. -/
def Asm.byteOk (v : Nat) : Bool := v < 256

/-- An LMEM byte address, 0..1023. -/
def Asm.addrOk (a : Nat) : Bool := a < 1024

/-- The statement's operands are all in the ranges of R114. -/
def Asm.wellFormed : Asm → Bool
  | .gadd d a b => regOk d && regOk a && regOk b
  | .gmul d a b => regOk d && regOk a && regOk b
  | .ginv d a => regOk d && regOk a
  | .peval d x deg base => regOk d && regOk x && byteOk deg && addrOk base
  | .dece => true
  | .decbw => true
  | .gldi d imm => regOk d && byteOk imm
  | .gld d addr => regOk d && addrOk addr
  | .gst s addr => regOk s && addrOk addr
  | .gsub d a b => regOk d && regOk a && regOk b
  | .gclr d => regOk d
  | .gsqr d a => regOk d && regOk a

/-- The command of a statement whose operands are in range; `Asm.assemble` uses it only there. -/
def Asm.toInstr : Asm → Instr
  | .gadd d a b => .gadd (Fin.ofNat 16 d) (Fin.ofNat 16 a) (Fin.ofNat 16 b)
  | .gmul d a b => .gmul (Fin.ofNat 16 d) (Fin.ofNat 16 a) (Fin.ofNat 16 b)
  | .ginv d a => .ginv (Fin.ofNat 16 d) (Fin.ofNat 16 a)
  | .peval d x deg base => .peval (Fin.ofNat 16 d) (Fin.ofNat 16 x) (BitVec.ofNat 8 deg) (BitVec.ofNat 10 base)
  | .dece => .dece
  | .decbw => .decbw
  | .gldi d imm => .gldi (Fin.ofNat 16 d) (BitVec.ofNat 8 imm)
  | .gld d addr => .gld (Fin.ofNat 16 d) (BitVec.ofNat 10 addr)
  | .gst s addr => .gst (Fin.ofNat 16 s) (BitVec.ofNat 10 addr)
  | .gsub d a b => .gadd (Fin.ofNat 16 d) (Fin.ofNat 16 a) (Fin.ofNat 16 b)
  | .gclr d => .gadd (Fin.ofNat 16 d) (Fin.ofNat 16 d) (Fin.ofNat 16 d)
  | .gsqr d a => .gmul (Fin.ofNat 16 d) (Fin.ofNat 16 a) (Fin.ofNat 16 a)

/-- Assemble one statement: exactly one command, or a refusal of an operand out of range (R114, R115). -/
def Asm.assemble (a : Asm) : Option Instr :=
  if a.wellFormed then some a.toInstr else none

/-- Disassemble: a core form always, GADD and never GSUB (R115). -/
def Instr.toAsm : Instr → Asm
  | .gadd rd ra rb => .gadd rd ra rb
  | .gmul rd ra rb => .gmul rd ra rb
  | .ginv rd ra => .ginv rd ra
  | .peval rd rx deg base => .peval rd rx deg.toNat base.toNat
  | .dece => .dece
  | .decbw => .decbw
  | .gldi rd imm => .gldi rd imm.toNat
  | .gld rd addr => .gld rd addr.toNat
  | .gst rs addr => .gst rs addr.toNat

/-- A register operand as the assembler writes it: `G0` to `G15`. -/
def Asm.regText (r : Nat) : String := "G" ++ toString r

/-- An LMEM address operand as the assembler writes it: a number in brackets. -/
def Asm.addrText (a : Nat) : String := "[" ++ toString a ++ "]"

/-- The source text of a statement, with decimal numbers (R114). -/
def Asm.text : Asm → String
  | .gadd d a b => "GADD " ++ regText d ++ ", " ++ regText a ++ ", " ++ regText b
  | .gmul d a b => "GMUL " ++ regText d ++ ", " ++ regText a ++ ", " ++ regText b
  | .ginv d a => "GINV " ++ regText d ++ ", " ++ regText a
  | .peval d x deg base => "PEVAL " ++ regText d ++ ", " ++ regText x ++ ", " ++ toString deg ++ ", " ++ addrText base
  | .dece => "DECE"
  | .decbw => "DECBW"
  | .gldi d imm => "GLDI " ++ regText d ++ ", " ++ toString imm
  | .gld d addr => "GLD " ++ regText d ++ ", " ++ addrText addr
  | .gst s addr => "GST " ++ regText s ++ ", " ++ addrText addr
  | .gsub d a b => "GSUB " ++ regText d ++ ", " ++ regText a ++ ", " ++ regText b
  | .gclr d => "GCLR " ++ regText d
  | .gsqr d a => "GSQR " ++ regText d ++ ", " ++ regText a

end Sys2Proof
end

