-- ==== Sys2Proof/Certificates/Slice0/Obligations.lean ====
section
/-! DEFINITION. The statements about GF8DEC for the provers. Each docstring names the rules it formalises. -/

open Sys2Proof Sys2Proof.Machine

/-! ### Encoding -/

/-- 30_encoding.md R101 to R109: no operand bit is dropped. Decoding the encoding of a command gives it back, with every
operand at every value its field admits. -/
def Obligations.DecodeEncodeRoundTrip : Prop := ∀ i : Instr, decode (encode i) = .instr i

/-- The other direction: a word that decodes to a command is that command's only encoding (R102 to R108, R110). -/
def Obligations.DecodedWordIsTheEncoding : Prop := ∀ (w : Word) (i : Instr), decode w = .instr i → encode i = w

/-- R108, R117: a word encodes a row's instruction exactly when `(w & mask) = match`, no two rows overlap, and every word that no
row selects is illegal. -/
def Obligations.DecodeFollowsTheOpcodeMap : Prop :=
  (∀ (w : Word), ∀ row ∈ opcodeMap,
    row.selects w = true ↔ ∃ i : Instr, decode w = .instr i ∧ i.mnemonic = row.mnemonic) ∧
  (∀ w : Word, opcodeMap.Pairwise fun r q => ¬ (r.selects w = true ∧ q.selects w = true)) ∧
  ∀ w : Word, (∀ row ∈ opcodeMap, row.selects w = false) ↔ ∃ why, decode w = .illegal why

/-- R110, R111, R265: a word with a reserved opcode, or with an assigned opcode and an unassigned bit set, is no command;
accepted, it completes with ILLEGAL, updates LERR and FERR, and changes nothing else. That prdata is kept and pready falls in that
step is the model's choice (log 10), and `draws` is the model's own (log 7). -/
def Obligations.IllegalWordsCompleteWithIllegal : Prop :=
  ∀ w : Word,
    (((opcField w).toNat = 0 ∨ (0x07 ≤ (opcField w).toNat ∧ (opcField w).toNat ≤ 0x0F) ∨ 0x13 ≤ (opcField w).toNat) ∨
      ((opcField w = 0x01 ∨ opcField w = 0x02) ∧ w.extractLsb' 0 14 ≠ 0) ∨
      (opcField w = 0x03 ∧ w.extractLsb' 0 18 ≠ 0) ∨
      ((opcField w = 0x05 ∨ opcField w = 0x06) ∧ w.extractLsb' 0 26 ≠ 0) ∨
      (opcField w = 0x10 ∧ w.extractLsb' 8 14 ≠ 0) ∨
      ((opcField w = 0x11 ∨ opcField w = 0x12) ∧ w.extractLsb' 10 12 ≠ 0)) →
    ∀ (s : State) (p : Params), s.phase = .running { cl := w, params := p, wait := 0 } →
      (∀ rest, s.host ≠ .reset :: rest) →
      step s = .next { s with
        lerr := .illegal, ferr := if s.ferr = .ok then .illegal else s.ferr,
        phase := .idle, staged := [], pready := false, draws := s.draws + 1 }

/-- Words written out from the spec's encodings (95_test_vectors.md) decode to the commands they stand for. -/
def Obligations.SpecWordsDecode : Prop :=
  decode 0x04048000 = .instr (.gadd 0 1 2) ∧ decode 0x08CCC000 = .instr (.gmul 3 3 3) ∧
  decode 0x0D140000 = .instr (.ginv 4 5) ∧ decode 0x104BFF01 = .instr (.peval 1 2 255 0x301) ∧
  decode 0x14000000 = .instr .dece ∧ decode 0x18000000 = .instr .decbw ∧
  decode 0x43C000AB = .instr (.gldi 15 0xAB) ∧ decode 0x448003FF = .instr (.gld 2 0x3FF) ∧
  decode 0x49C00010 = .instr (.gst 7 0x010)

/-- R115: GSUB, GCLR and GSQR expand to exactly one command each. -/
def Obligations.PseudoInstructionsExpand : Prop :=
  (∀ d a b, (Asm.gsub d a b).assemble = (Asm.gadd d a b).assemble) ∧
  (∀ d, (Asm.gclr d).assemble = (Asm.gadd d d d).assemble) ∧
  (∀ d a, (Asm.gsqr d a).assemble = (Asm.gmul d a a).assemble) ∧
  ∀ (i : Instr) d a b, i.toAsm ≠ .gsub d a b

/-- R114: in every form, pseudo-instructions included, an operand out of its range is refused and never truncated; in range,
the word of the assembled command holds the opcode and the operands' own numbers in their fields. -/
def Obligations.AssemblerRefusesAndKeepsOperands : Prop :=
  (∀ d a b, (Asm.gadd d a b).assemble = none ↔ (15 < d ∨ 15 < a ∨ 15 < b)) ∧
  (∀ d a b, (Asm.gmul d a b).assemble = none ↔ (15 < d ∨ 15 < a ∨ 15 < b)) ∧
  (∀ d a, (Asm.ginv d a).assemble = none ↔ (15 < d ∨ 15 < a)) ∧
  (∀ d x deg base, (Asm.peval d x deg base).assemble = none ↔ (15 < d ∨ 15 < x ∨ 255 < deg ∨ 1023 < base)) ∧
  (∀ d imm, (Asm.gldi d imm).assemble = none ↔ (15 < d ∨ 255 < imm)) ∧
  (∀ d addr, (Asm.gld d addr).assemble = none ↔ (15 < d ∨ 1023 < addr)) ∧
  (∀ s addr, (Asm.gst s addr).assemble = none ↔ (15 < s ∨ 1023 < addr)) ∧
  (∀ d a b, (Asm.gsub d a b).assemble = none ↔ (15 < d ∨ 15 < a ∨ 15 < b)) ∧
  (∀ d, (Asm.gclr d).assemble = none ↔ 15 < d) ∧
  (∀ d a, (Asm.gsqr d a).assemble = none ↔ (15 < d ∨ 15 < a)) ∧
  (∀ d a b i, (Asm.gadd d a b).assemble = some i → opcField (encode i) = 0x01 ∧
    (rdField (encode i)).val = d ∧ (raField (encode i)).val = a ∧ (rbField (encode i)).val = b) ∧
  (∀ d a b i, (Asm.gmul d a b).assemble = some i → opcField (encode i) = 0x02 ∧
    (rdField (encode i)).val = d ∧ (raField (encode i)).val = a ∧ (rbField (encode i)).val = b) ∧
  (∀ d a i, (Asm.ginv d a).assemble = some i → opcField (encode i) = 0x03 ∧
    (rdField (encode i)).val = d ∧ (raField (encode i)).val = a) ∧
  (∀ d x deg base i, (Asm.peval d x deg base).assemble = some i → opcField (encode i) = 0x04 ∧
    (rdField (encode i)).val = d ∧ (raField (encode i)).val = x ∧
    (degField (encode i)).toNat = deg ∧ (addrField (encode i)).toNat = base) ∧
  (∀ i, Asm.dece.assemble = some i → opcField (encode i) = 0x05) ∧
  (∀ i, Asm.decbw.assemble = some i → opcField (encode i) = 0x06) ∧
  (∀ d imm i, (Asm.gldi d imm).assemble = some i → opcField (encode i) = 0x10 ∧
    (rdField (encode i)).val = d ∧ (immField (encode i)).toNat = imm) ∧
  (∀ d addr i, (Asm.gld d addr).assemble = some i → opcField (encode i) = 0x11 ∧
    (rdField (encode i)).val = d ∧ (addrField (encode i)).toNat = addr) ∧
  (∀ s addr i, (Asm.gst s addr).assemble = some i → opcField (encode i) = 0x12 ∧
    (rdField (encode i)).val = s ∧ (addrField (encode i)).toNat = addr) ∧
  Asm.dece.assemble = some .dece ∧ Asm.decbw.assemble = some .decbw ∧
  ∀ i : Instr, i.toAsm.assemble = some i

/-! ### The field -/

/-- 10_state.md R34, R35: ALOG[i] is the i-th power of the generator 0x03, ALOG[0] = 1, each entry is the one before it times 0x03,
ALOG[255] = 1, and for a ≠ 0 LOG[a] is the unique i in 0..254 with ALOG[i] = a. -/
def Obligations.TablesArePowersOfTheGenerator : Prop :=
  (∀ i ≤ 255, alog i = gpow 0x03 i) ∧ alog 0 = 1 ∧ (∀ i < 255, alog (i + 1) = gmul (alog i) 0x03 ∧ alog (i + 1) = alog i ^^^ xtime (alog i)) ∧ alog 255 = 1 ∧
  ∀ a : Elem, a ≠ 0 → log a ≤ 254 ∧ alog (log a) = a ∧ ∀ i ≤ 254, alog i = a → i = log a

/-- 40_field_arith.md R143: the product by tables equals the carry-less product modulo 0x11B, for every pair. -/
def Obligations.TableProductIsCarryLessProduct : Prop := ∀ a b : Elem, gmul a b = clmul a b

/-- 40_field_arith.md R140, R142, R144: the field laws. -/
def Obligations.FieldLaws : Prop :=
  (∀ a b : Elem, gadd a b = gadd b a) ∧ (∀ a b c : Elem, gadd (gadd a b) c = gadd a (gadd b c)) ∧
  (∀ a : Elem, gadd a 0 = a ∧ gadd a a = 0) ∧
  (∀ a b : Elem, gmul a b = gmul b a) ∧ (∀ a b c : Elem, gmul (gmul a b) c = gmul a (gmul b c)) ∧
  (∀ a : Elem, gmul a 1 = a ∧ gmul a 0 = 0) ∧
  (∀ a b c : Elem, gmul a (gadd b c) = gadd (gmul a b) (gmul a c)) ∧
  (∀ a : Elem, a ≠ 0 → ∃ v, ginv a = some v ∧ gmul a v = 1 ∧ ginv v = some a) ∧ ginv 0 = none

/-- 41_poly_eval.md R171: Horner's rule starts from the highest coefficient d and, going down, multiplies by x and adds the next
coefficient; its result is the sum of the coefficients times the powers of x, and the constant term at 0. -/
def Obligations.HornerIsThePowerSum : Prop :=
  ∀ (c : List Elem) (x : Elem),
    (∀ d : Elem, horner (c ++ [d]) x = c.foldr (fun ci r => gadd (gmul r x) ci) d) ∧
    horner c x = ((List.range c.length).map fun i => gmul (c.getD i 0) (gpow x i)).foldr gadd 0 ∧
    horner c 0 = c.headD 0

/-! ### The commands -/

/-- 40_field_arith.md R145: GADD writes the exclusive or of its sources, completes with OK, and nothing else of the machine's
changes; its words are those with opcode 0x01 and bits [13:0] zero, and one of those bits set is ILLEGAL. -/
def Obligations.GaddAsSpecified : Prop :=
  (∀ w : Word, w &&& 0xFC003FFF = 0x04000000 → decode w = .instr (.gadd (rdField w) (raField w) (rbField w))) ∧
  (∀ w : Word, opcField w = 0x01 → w.extractLsb' 0 14 ≠ 0 → decode w = .illegal .reservedBits) ∧
  ∀ (rd ra rb : RegIdx) (s : State), exec (.gadd rd ra rb) s = .next { s with
    g := s.g.set rd (s.g[ra] ^^^ s.g[rb]), lerr := .ok, phase := .idle, staged := [], draws := s.draws + 1 }

/-- 40_field_arith.md R146: GMUL writes the field product of its sources (R141) and completes with OK; likewise its words. -/
def Obligations.GmulAsSpecified : Prop :=
  (∀ w : Word, w &&& 0xFC003FFF = 0x08000000 → decode w = .instr (.gmul (rdField w) (raField w) (rbField w))) ∧
  (∀ w : Word, opcField w = 0x02 → w.extractLsb' 0 14 ≠ 0 → decode w = .illegal .reservedBits) ∧
  ∀ (rd ra rb : RegIdx) (s : State), exec (.gmul rd ra rb) s = .next { s with
    g := s.g.set rd (if s.g[ra] = 0 ∨ s.g[rb] = 0 then 0 else alog ((log s.g[ra] + log s.g[rb]) % 255)),
    lerr := .ok, phase := .idle, staged := [], draws := s.draws + 1 }

/-- 40_field_arith.md R147: GINV of a non-zero element writes ALOG[255 - LOG[a]] and completes with OK; GINV of 0 writes nothing
and completes with ZERO_INVERSE; likewise its words. -/
def Obligations.GinvAsSpecified : Prop :=
  (∀ w : Word, w &&& 0xFC03FFFF = 0x0C000000 → decode w = .instr (.ginv (rdField w) (raField w))) ∧
  (∀ w : Word, opcField w = 0x03 → w.extractLsb' 0 18 ≠ 0 → decode w = .illegal .reservedBits) ∧
  (∀ (rd ra : RegIdx) (s : State), s.g[ra] ≠ 0 → exec (.ginv rd ra) s = .next { s with
    g := s.g.set rd (alog (255 - log s.g[ra])), lerr := .ok, phase := .idle, staged := [], draws := s.draws + 1 }) ∧
  ∀ (rd ra : RegIdx) (s : State), s.g[ra] = 0 → exec (.ginv rd ra) s = .next { s with
    lerr := .zeroInverse, ferr := if s.ferr = .ok then .zeroInverse else s.ferr,
    phase := .idle, staged := [], draws := s.draws + 1 }

/-- 41_poly_eval.md R170, R172: PEVAL evaluates the DEG + 1 coefficients from BASE at G[RX], constant term first, when
BASE + DEG is at most 1023; else it writes nothing and completes with ADDR_RANGE. Its format has no reserved bits. -/
def Obligations.PevalAsSpecified : Prop :=
  (∀ w : Word, w &&& 0xFC000000 = 0x10000000 →
    decode w = .instr (.peval (rdField w) (raField w) (degField w) (addrField w))) ∧
  (∀ (rd rx : RegIdx) (deg : BitVec 8) (base : LmemAddr) (s : State), base.toNat + deg.toNat ≤ 1023 →
    exec (.peval rd rx deg base) s = .next { s with
      g := s.g.set rd (horner ((List.range (deg.toNat + 1)).map fun i => s.loadByte (base.toNat + i)) s.g[rx]),
      lerr := .ok, phase := .idle, staged := [], draws := s.draws + 1 }) ∧
  ∀ (rd rx : RegIdx) (deg : BitVec 8) (base : LmemAddr) (s : State), 1023 < base.toNat + deg.toNat →
    exec (.peval rd rx deg base) s = .next { s with
      lerr := .addrRange, ferr := if s.ferr = .ok then .addrRange else s.ferr,
      phase := .idle, staged := [], draws := s.draws + 1 }

/-- 43_data_move.md R240: GLDI writes its immediate, unchanged, and completes with OK; likewise its words. -/
def Obligations.GldiAsSpecified : Prop :=
  (∀ w : Word, w &&& 0xFC3FFF00 = 0x40000000 → decode w = .instr (.gldi (rdField w) (immField w))) ∧
  (∀ w : Word, opcField w = 0x10 → w.extractLsb' 8 14 ≠ 0 → decode w = .illegal .reservedBits) ∧
  ∀ (rd : RegIdx) (imm : Elem) (s : State), exec (.gldi rd imm) s = .next { s with
    g := s.g.set rd imm, lerr := .ok, phase := .idle, staged := [], draws := s.draws + 1 }

/-- 43_data_move.md R241, 10_state.md R38: GLD writes the byte at ADDR, and completes with OK also where nothing has written
that byte: then some byte results, whatever it is (log 5). -/
def Obligations.GldAsSpecified : Prop :=
  (∀ w : Word, w &&& 0xFC3FFC00 = 0x44000000 → decode w = .instr (.gld (rdField w) (addrField w))) ∧
  (∀ w : Word, opcField w = 0x11 → w.extractLsb' 10 12 ≠ 0 → decode w = .illegal .reservedBits) ∧
  ∀ (rd : RegIdx) (addr : LmemAddr) (s : State), ∃ v : Elem,
    (∀ b, Memory.read addr.toNat s.lmem = some b → v = b) ∧
    exec (.gld rd addr) s = .next { s with
      g := s.g.set rd v, lerr := .ok, phase := .idle, staged := [], draws := s.draws + 1 }

/-- 43_data_move.md R242: GST stores G[RD] to the byte at ADDR, exactly one byte, and completes with OK; likewise its words. -/
def Obligations.GstAsSpecified : Prop :=
  (∀ w : Word, w &&& 0xFC3FFC00 = 0x48000000 → decode w = .instr (.gst (rdField w) (addrField w))) ∧
  (∀ w : Word, opcField w = 0x12 → w.extractLsb' 10 12 ≠ 0 → decode w = .illegal .reservedBits) ∧
  ∀ (rs : RegIdx) (addr : LmemAddr) (s : State), ∃ m : Memory,
    exec (.gst rs addr) s = .next { s with
      lmem := m, lerr := .ok, phase := .idle, staged := [], draws := s.draws + 1 } ∧
    Memory.read addr.toNat m = some s.g[rs] ∧
    ∀ a, a ≠ addr.toNat → Memory.read a m = Memory.read a s.lmem

/-- 42_decoder.md R191, R192 and 60_exceptions.md R264, R266: the checks both decodes start with, in their order, and the lists
they leave. X i is the byte at XB + i, Y i the byte at YB + i. The first check that fails ends the command with its code,
and nothing is written. -/
def Obligations.DecodeChecksInOrder : Prop :=
  ∀ s : State,
    let p := s.operands
    let m := p.m.toNat
    let k := p.k.toNat
    let X := fun i => s.loadByte (p.xbase.toNat + i)
    let Y := fun i => s.loadByte (p.ybase.toNat + i)
    let past := p.xbase.toNat + m - 1 > 1023 ∨ p.ybase.toNat + m - 1 > 1023 ∨ p.obase.toNat + k - 1 > 1023
    (k = 0 → s.decodeCommon = .error .param) ∧
    (0 < k → m < k → s.decodeCommon = .error .insufficient) ∧
    (0 < k → k ≤ m → p.f.toNat + k - 1 > 255 → s.decodeCommon = .error .param) ∧
    (0 < k → k ≤ m → p.f.toNat + k - 1 ≤ 255 → past → s.decodeCommon = .error .addrRange) ∧
    (0 < k → k ≤ m → p.f.toNat + k - 1 ≤ 255 → ¬ past →
      ((∃ i < m, X i = 0) ∨ (∃ i j, i < j ∧ j < m ∧ X i = X j)) → s.decodeCommon = .error .param) ∧
    (0 < k → k ≤ m → p.f.toNat + k - 1 ≤ 255 → ¬ past →
      (∀ i < m, X i ≠ 0) → (∀ i j, i < j → j < m → X i ≠ X j) →
      s.decodeCommon = .ok { x := (List.range m).map X, y := (List.range m).map Y, k := k, f := p.f.toNat,
                             obase := p.obase }) ∧
    ∀ c : ResultCode, s.decodeCommon = .error c → ∀ i ∈ [Instr.dece, Instr.decbw], exec i s = .next { s with
      lerr := c, ferr := if s.ferr = .ok then c else s.ferr, phase := .idle, staged := [], draws := s.draws + 1 }

/-- 42_decoder.md R190, R193, R200, R201: DECE's one word, and ILLEGAL where one of bits [25:0] is set; a failed check ends it
with its code; once the checks have passed, it completes with OK. There is exactly one polynomial of at most K coefficients
through the first K points, and LMEM[OB + j] becomes its value at the integer F + j, for j < K; no other byte changes. -/
def Obligations.DeceWritesTheInterpolation : Prop :=
  decode 0x14000000 = .instr .dece ∧
  (∀ w : Word, opcField w = 0x05 → w.extractLsb' 0 26 ≠ 0 → decode w = .illegal .reservedBits) ∧
  (∀ (s : State) (c : ResultCode), s.decodeCommon = .error c → exec .dece s = .next { s with
    lerr := c, ferr := if s.ferr = .ok then c else s.ferr, phase := .idle, staged := [], draws := s.draws + 1 }) ∧
  ∀ (s : State) (d : DecodeInput), s.decodeCommon = .ok d →
    ∃ (p : List Elem) (mem : Memory),
      p.length = d.k ∧ (∀ i < d.k, horner p (d.x.getD i 0) = d.y.getD i 0) ∧
      (∀ q : List Elem, q.length = d.k → (∀ i < d.k, horner q (d.x.getD i 0) = d.y.getD i 0) → q = p) ∧
      exec .dece s = .next { s with
        lmem := mem, lerr := .ok, phase := .idle, staged := [], draws := s.draws + 1 } ∧
      (∀ j < d.k, Memory.read (d.obase.toNat + j) mem = some (horner p (BitVec.ofNat 8 (d.f + j)))) ∧
      ∀ a, (∀ j < d.k, a ≠ d.obase.toNat + j) → Memory.read a mem = Memory.read a s.lmem

/-- 42_decoder.md R211, R214, R215: once the checks have passed, if some polynomial of at most K coefficients differs from the
y-values at no more than e = floor((M - K) / 2) points, it is the only one, DECBW completes with OK, and LMEM[OB + j] becomes
its value at the integer F + j for j < K, with no other byte changed. If there is none, DECBW completes with UNSOLVABLE and
writes nothing. (R214's remark that the solution taken does not matter is SolutionChoiceDoesNotMatter.) -/
def Obligations.DecbwCorrectsUpToTheBound : Prop :=
  ∀ (s : State) (d : DecodeInput), s.decodeCommon = .ok d →
    (∀ p : List Elem, p.length = d.k → disagreements p d.x d.y ≤ (d.x.length - d.k) / 2 →
      (∀ q : List Elem, q.length = d.k → disagreements q d.x d.y ≤ (d.x.length - d.k) / 2 → q = p) ∧
      ∃ mem : Memory,
        exec .decbw s = .next { s with
          lmem := mem, lerr := .ok, phase := .idle, staged := [], draws := s.draws + 1 } ∧
        (∀ j < d.k, Memory.read (d.obase.toNat + j) mem = some (horner p (BitVec.ofNat 8 (d.f + j)))) ∧
        ∀ a, (∀ j < d.k, a ≠ d.obase.toNat + j) → Memory.read a mem = Memory.read a s.lmem) ∧
    ((¬ ∃ p : List Elem, p.length = d.k ∧ disagreements p d.x d.y ≤ (d.x.length - d.k) / 2) →
      exec .decbw s = .next { s with
        lerr := .unsolvable, ferr := if s.ferr = .ok then .unsolvable else s.ferr,
        phase := .idle, staged := [], draws := s.draws + 1 })

/-- 42_decoder.md R212, R214: which solution of the Berlekamp-Welch system is taken does not matter (log 14). For M distinct points
and any solution (E, Q) of their system, Q / E leaves no remainder exactly when DECBW recovers a polynomial, and then the
quotient is that polynomial. -/
def Obligations.SolutionChoiceDoesNotMatter : Prop :=
  ∀ (x y : List Elem) (k : Nat) (eps q : List Elem), x.Nodup → y.length = x.length → 0 < k → k ≤ x.length →
    eps.length = errorBound x.length k → q.length = errorBound x.length k + k →
    (∀ r ∈ List.zipWith (bwRow k (errorBound x.length k)) x y, r.holds (q ++ eps) = true) →
    ((∀ c ∈ (polyDivMod k q eps).2, c = 0) → bwPoly x y k = some (polyDivMod k q eps).1) ∧
    (∀ p, bwPoly x y k = some p → (∀ c ∈ (polyDivMod k q eps).2, c = 0) ∧ (polyDivMod k q eps).1 = p)

/-- 42_decoder.md R203, R212: the solver that both decodes use answers a solution exactly when the system has one. -/
def Obligations.SolverIsSoundAndComplete : Prop :=
  ∀ (n : Nat) (eqs : List Equation), (∀ q ∈ eqs, q.coeffs.length = n) →
    (∀ v, solve n eqs = some v → v.length = n ∧ ∀ q ∈ eqs, q.holds v = true) ∧
    (solve n eqs = none → ∀ v : List Elem, v.length = n → ∃ q ∈ eqs, q.holds v = false)

/-- 42_decoder.md R213: long division by a monic polynomial: Q = P·E + R at every point, with the quotient and remainder of the
lengths the rule gives. -/
def Obligations.DivisionIdentity : Prop :=
  ∀ (n : Nat) (q eps : List Elem), q.length = eps.length + n →
    (polyDivMod n q eps).1.length = n ∧ (polyDivMod n q eps).2.length = eps.length ∧
    ∀ x : Elem, horner q x =
      gadd (gmul (horner (polyDivMod n q eps).1 x) (horner (eps ++ [1]) x)) (horner (polyDivMod n q eps).2 x)

/-! ### Completion, result codes and frames, over all commands -/

/-- 60_exceptions.md R260, R261, R262: every command, in every state, completes, with a code that the rules let it raise, and
then no command is in flight and nothing is staged. -/
def Obligations.EveryCommandCompletes : Prop :=
  ∀ (i : Instr) (s : State), ∃ t : State, exec i s = .next t ∧ t.lerr ∈ codesOf i ∧ t.busy = false ∧ t.staged = []

/-- 60_exceptions.md R264: a command that completes with a non-zero code commits none of its writes. -/
def Obligations.FailingCommandCommitsNothing : Prop :=
  ∀ (i : Instr) (s t : State), exec i s = .next t → t.lerr ≠ .ok → t.g = s.g ∧ t.lmem = s.lmem

/-- 10_state.md R42, R43 at a completion: FERR takes the command's code only when that is not OK and FERR was OK; in every other
case FERR keeps its value. -/
def Obligations.CompletionKeepsTheFirstError : Prop :=
  ∀ (i : Instr) (s t : State), exec i s = .next t →
    (t.lerr ≠ .ok → s.ferr = .ok → t.ferr = t.lerr) ∧ (t.lerr = .ok ∨ s.ferr ≠ .ok → t.ferr = s.ferr)

/-- The register frame: a command changes no element register but its destination; GST, DECE and DECBW change none. -/
def Obligations.CommandsChangeOnlyTheirDestination : Prop :=
  ∀ (i : Instr) (s t : State), exec i s = .next t →
    ∀ r : RegIdx, destReg i ≠ some r → t.g[r] = s.g[r]

/-- The memory frame: a command changes no LMEM byte but those it stores to (ADDR for GST, OB + j with j < K for a decode); the
others store nothing. -/
def Obligations.CommandsChangeOnlyTheirBytes : Prop :=
  ∀ (i : Instr) (s t : State), exec i s = .next t →
    ∀ a, a ∉ storeAddrs s i → Memory.read a t.lmem = Memory.read a s.lmem

/-- The frame of everything else: DEC_X, DEC_Y, DEC_O, DEC_MK and OVR are no command's to change (10_state.md R48 to R51,
60_exceptions.md R263). That a command keeps prdata and pready (20_memory.md R86) is the model's choice (log 10), and the host's
events are the model's own (log 1). -/
def Obligations.CommandsKeepTheOtherRegisters : Prop :=
  ∀ (i : Instr) (s t : State), exec i s = .next t →
    t.dec = s.dec ∧ t.ovr = s.ovr ∧ t.prdata = s.prdata ∧ t.pready = s.pready ∧ t.host = s.host

/-! ### The step, the BUSY window and reset -/

/-- The step at the end of a BUSY window runs the command that CL decodes to (30_encoding.md R117); around it the step only
withdraws `pready`, since it performs no host transaction (20_memory.md R77; the level of `pready` is the model's choice, log 10). -/
def Obligations.StepRunsTheLatchedCommand : Prop :=
  ∀ (s : State) (f : Flight) (i : Instr), s.phase = .running f → f.wait = 0 → (∀ rest, s.host ≠ .reset :: rest) →
    decode f.cl = .instr i → step s = exec i { s with pready := false }

/-- 60_exceptions.md R260: nothing stops GF8DEC. Every step answers a next state. -/
def Obligations.NoStepStops : Prop := ∀ s : State, ∃ t : State, step s = .next t

/-- While BUSY = 0 and no reset is pending a step performs the host's next transaction, in the order the host issues them
(20_memory.md R81 items 1 and 3), and nothing else; with none to perform all state is held (60_exceptions.md R278). What prdata
and pready show then is the model's choice (log 10); the host's list, POLL, `draws` and the step with nothing to do are log 1, 20, 7 and 22. -/
def Obligations.IdleStepPerformsTheHostsTransaction : Prop :=
  ∀ (s : State) (rest : List HostEvent), s.phase = .idle →
    (s.host = [] → step s = .next { s with pready := false }) ∧
    (∀ off w, s.host = .write off w :: rest →
      step s = .next { s.portWrite w (portReg off) with host := rest, pready := true }) ∧
    (∀ off, s.host = .read off :: rest → step s = .next { s with
      prdata := s.portRead (portReg off), host := rest, pready := true, draws := s.draws + 1 }) ∧
    (s.host = .poll :: rest → step s = .next { s with
      prdata := s.portRead .status, host := rest, pready := true })

/-- 10_state.md R46, R53: a write of CMD while BUSY = 0 latches the word, takes the snapshot of the parameters and sets BUSY,
and nothing else of the machine's changes; while BUSY = 1 it is dropped and sets OVR; CMD reads as 0. That the write raises pready
and keeps prdata is the model's choice (log 10). -/
def Obligations.CmdWriteAcceptsWhenIdle : Prop :=
  ∀ (s : State) (off : PortOffset) (w : Word) (rest : List HostEvent), portReg off = .cmd →
    (s.phase = .idle → s.host = .write off w :: rest → ∃ n : Nat,
      step s = .next { s with
        phase := .running { cl := w, params := s.dec, wait := n }, host := rest, pready := true }) ∧
    (s.hostInBusyWindow → s.host = .write off w :: rest →
      step s = .next { s with phase := s.tick.phase, ovr := true, host := rest, pready := true }) ∧
    s.portRead (portReg off) = 0

/-- 10_state.md R44, 70_reset_and_hazards.md R306, R307: inside a BUSY window a write of CMD, DEC_X, DEC_Y, DEC_O, DEC_MK, any Gi or
any LMEM word is dropped and sets OVR: no register, no LMEM byte and nothing of the command in flight changes but the time left of
its window. That the write raises pready and keeps prdata is the model's choice (log 10). -/
def Obligations.ProtectedWritesAreDroppedWhileBusy : Prop :=
  ∀ (s : State) (off : PortOffset) (w : Word) (rest : List HostEvent), s.hostInBusyWindow →
    s.host = .write off w :: rest →
    (portReg off ∈ [PortReg.cmd, .decX, .decY, .decO, .decMk] ∨ (∃ i, portReg off = .reg i) ∨ ∃ v, portReg off = .lmem v) →
    step s = .next { s with phase := s.tick.phase, ovr := true, host := rest, pready := true }

/-- 10_state.md R45: writing 1 to CTRL bit 0 clears LERR, FERR and OVR in one step, also inside a BUSY window; writing 0 to it
does nothing; bits [31:1] are ignored; CTRL reads as 0. That the write raises pready and keeps prdata is the model's choice
(log 10). -/
def Obligations.CtrlClearsTheErrorState : Prop :=
  ∀ (s : State) (off : PortOffset) (w : Word) (rest : List HostEvent), portReg off = .ctrl →
    s.host = .write off w :: rest → (s.phase = .idle ∨ s.hostInBusyWindow) →
    (w.getLsbD 0 = true → step s = .next { s with
      phase := s.tick.phase, lerr := .ok, ferr := .ok, ovr := false, host := rest, pready := true }) ∧
    (w.getLsbD 0 = false → step s = .next { s with phase := s.tick.phase, host := rest, pready := true }) ∧
    s.portRead .ctrl = 0

/-- 10_state.md R33, R48 to R51 while BUSY = 0: a write of a DEC register or of Gi sets the fields it names, ignores the reserved
bits, and changes no other register; and a read returns the fields with zeros above them. -/
def Obligations.RegisterWritesReadBack : Prop :=
  ∀ (s : State) (w : Word), s.busy = false →
    (s.portWrite w .decX = { s with dec := { s.dec with xbase := w.extractLsb' 0 10 } } ∧
      (s.portWrite w .decX).portRead .decX = w &&& 0x3FF) ∧
    (s.portWrite w .decY = { s with dec := { s.dec with ybase := w.extractLsb' 0 10 } } ∧
      (s.portWrite w .decY).portRead .decY = w &&& 0x3FF) ∧
    (s.portWrite w .decO = { s with dec := { s.dec with obase := w.extractLsb' 0 10 } } ∧
      (s.portWrite w .decO).portRead .decO = w &&& 0x3FF) ∧
    (s.portWrite w .decMk = { s with dec := { s.dec with
        m := w.extractLsb' 0 8, k := w.extractLsb' 8 8, f := w.extractLsb' 16 8 } } ∧
      (s.portWrite w .decMk).portRead .decMk = w &&& 0xFFFFFF) ∧
    ∀ i : RegIdx, s.portWrite w (.reg i) = { s with g := s.g.set i (w.extractLsb' 0 8) } ∧
      (s.portWrite w (.reg i)).portRead (.reg i) = w &&& 0xFF

/-- 20_memory.md R72: the LMEM window is little-endian. A write of window word v while BUSY = 0 writes exactly the bytes 4v to
4v+3, byte 4v from bits [7:0]; a read returns the four bytes in that order, and after the write what
was written. -/
def Obligations.LmemWindowIsLittleEndian : Prop :=
  ∀ (s : State) (w : Word) (v : BitVec 8), s.busy = false →
    ∃ m : Memory, s.portWrite w (.lmem v) = { s with lmem := m } ∧
      (∀ i < 4, Memory.read (4 * v.toNat + i) m = some (w.extractLsb' (8 * i) 8)) ∧
      (∀ a, (∀ i < 4, a ≠ 4 * v.toNat + i) → Memory.read a m = Memory.read a s.lmem) ∧
      s.portRead (.lmem v) = s.loadByte (4 * v.toNat + 3) ++ s.loadByte (4 * v.toNat + 2) ++
        s.loadByte (4 * v.toNat + 1) ++ s.loadByte (4 * v.toNat) ∧
      (s.portWrite w (.lmem v)).portRead (.lmem v) = w

/-- 20_memory.md R71, R73, 10_state.md R52: the port map. Each offset of the map selects its register, bits [1:0] of an offset are
ignored, and every other offset is unassigned: it reads 0 and ignores writes. CTRL and CMD read 0; ID and STATUS ignore
writes. -/
def Obligations.PortMapIsTheSpecs : Prop :=
  (∀ off : PortOffset, portReg off = portReg (off &&& 0xFFC)) ∧
  portReg 0x000 = .id ∧ portReg 0x004 = .ctrl ∧ portReg 0x008 = .status ∧ portReg 0x00C = .cmd ∧
  portReg 0x010 = .decX ∧ portReg 0x014 = .decY ∧ portReg 0x018 = .decO ∧ portReg 0x01C = .decMk ∧
  (∀ i : RegIdx, portReg (BitVec.ofNat 12 (0x040 + 4 * i.val)) = .reg i) ∧
  (∀ v : BitVec 8, portReg (BitVec.ofNat 12 (0x400 + 4 * v.toNat)) = .lmem v) ∧
  (∀ off : PortOffset, (0x020 ≤ off.toNat ∧ off.toNat < 0x040) ∨ (0x080 ≤ off.toNat ∧ off.toNat < 0x400) ∨
    0x800 ≤ off.toNat → portReg off = .unassigned) ∧
  ∀ (s : State) (w : Word), s.portRead .unassigned = 0 ∧ s.portRead .ctrl = 0 ∧ s.portRead .cmd = 0 ∧
    s.portWrite w .unassigned = s ∧ s.portWrite w .id = s ∧ s.portWrite w .status = s

/-- 10_state.md R40, R47: ID reads as 0x47463801, and STATUS as its fields, with every reserved bit 0; both ignore writes. -/
def Obligations.IdAndStatusReadAsSpecified : Prop :=
  ∀ s : State, s.portRead .id = 0x47463801 ∧ (∀ w : Word, s.portWrite w .id = s ∧ s.portWrite w .status = s) ∧
    (s.portRead .status).extractLsb' 0 1 = BitVec.ofBool s.busy ∧ (s.portRead .status).extractLsb' 1 7 = 0 ∧
    (s.portRead .status).extractLsb' 8 4 = s.lerr.bits ∧ (s.portRead .status).extractLsb' 12 4 = 0 ∧
    (s.portRead .status).extractLsb' 16 4 = s.ferr.bits ∧ (s.portRead .status).extractLsb' 20 4 = 0 ∧
    (s.portRead .status).extractLsb' 24 1 = BitVec.ofBool s.ovr ∧ (s.portRead .status).extractLsb' 25 7 = 0

/-- 20_memory.md R78, 70_reset_and_hazards.md R308: a read, at any offset and also inside a BUSY window, answers some word and
changes nothing of the machine's but the passing of the window; a read of Gi has bits [31:8] zero. While BUSY = 0 a read of Gi and
of a written LMEM byte is exact (10_state.md R33, 20_memory.md R72). That the read raises pready in its step is the model's choice
(log 10), and `draws` is the model's own (log 7). -/
def Obligations.ReadsHaveNoSideEffect : Prop :=
  ∀ (s : State) (off : PortOffset) (rest : List HostEvent), s.host = .read off :: rest →
    (s.phase = .idle ∨ s.hostInBusyWindow) →
    ∃ data : Word, step s = .next { s with
        phase := s.tick.phase, prdata := data, pready := true, host := rest, draws := s.draws + 1 } ∧
      ((∀ i, portReg off ≠ .reg i) → (∀ v, portReg off ≠ .lmem v) → data = s.portRead (portReg off)) ∧
      (∀ i, portReg off = .reg i → data.extractLsb' 8 24 = 0) ∧
      (∀ i, portReg off = .reg i → s.busy = false → data = (s.g[i]).setWidth 32) ∧
      ∀ v, portReg off = .lmem v → s.busy = false → ∀ i < 4, ∀ b,
        Memory.read (4 * v.toNat + i) s.lmem = some b → data.extractLsb' (8 * i) 8 = b

/-- 20_memory.md R76, 70_reset_and_hazards.md R306, R307: while a command is in flight and its completion step is not due, no step
but reset changes G, LMEM, the DEC registers, CL or PARAMS. -/
def Obligations.BusyWindowKeepsTheOperands : Prop :=
  ∀ (s t : State) (f : Flight), s.phase = .running f → f.wait ≠ 0 → (∀ rest, s.host ≠ .reset :: rest) →
    step s = .next t →
    t.g = s.g ∧ t.lmem = s.lmem ∧ t.dec = s.dec ∧ t.phase = .running { f with wait := f.wait - 1 }

/-- 60_exceptions.md R262, 70_reset_and_hazards.md R310: every accepted command reaches its completion step after a finite time, in
every run in which no reset is pending: the window runs out, and the next step leaves the core idle. -/
def Obligations.EveryAcceptedCommandCompletes : Prop :=
  ∀ (s : State) (f : Flight), s.phase = .running f → HostEvent.reset ∉ s.host →
    ∃ t : State, core.run (f.wait + 1) s = .next t ∧ t.phase = .idle ∧ t.staged = []

/-- 20_memory.md R81 item 4, 30_encoding.md R116: a host that polls after its CMD write is answered. When the command's BUSY window
has passed, one more STATUS read returns BUSY = 0 with the code of the completed command, whose effects are there. -/
def Obligations.PollReturnsAfterCompletion : Prop :=
  ∀ (s : State) (f : Flight) (rest : List HostEvent), s.phase = .running f → s.host = .poll :: rest →
    ∃ t u : State, runLatched f.cl s = .next u ∧ core.run (f.wait + 2) s = .next t ∧ t.phase = .idle ∧ t.host = rest ∧
      t.g = u.g ∧ t.lmem = u.lmem ∧ t.dec = u.dec ∧ t.lerr = u.lerr ∧ t.ferr = u.ferr ∧
      t.prdata.extractLsb' 0 1 = 0 ∧ t.prdata.extractLsb' 8 4 = t.lerr.bits

/-- The whole way of a command: `C <assembly>` (R116) of any command, from any state with BUSY = 0. After finitely many steps the
host has read BUSY = 0 and goes on, and the state is what the command's meaning gives on the state at the CMD write: the
word decodes to the command, its window passes, it completes (10_state.md R46, 20_memory.md R76, R81). The host's list of events and
the POLL event are the model's own (log 1, 20). -/
def Obligations.IssuedCommandRunsToItsEnd : Prop :=
  ∀ (i : Instr) (s : State) (rest : List HostEvent), s.phase = .idle → s.host = issue i ++ rest →
    ∃ (n : Nat) (t u : State),
      exec i { s with phase := .running { cl := encode i, params := s.dec, wait := 0 } } = .next u ∧
      core.run n s = .next t ∧ t.phase = .idle ∧ t.host = rest ∧
      t.g = u.g ∧ t.lmem = u.lmem ∧ t.dec = s.dec ∧ t.lerr = u.lerr ∧ t.ferr = u.ferr ∧ t.ovr = s.ovr

/-- `WL <addr>: b0 b1 …` (30_encoding.md R116): the bytes land at rising addresses from `addr`, the last word is padded with 0x00, and
no other byte, no register and no error state changes. One step for each word is the model's reading of time (log 2), and the list
of events its own (log 1). -/
def Obligations.WriteBytesNotation : Prop :=
  ∀ (s : State) (addr : Nat) (bytes : List Elem), s.phase = .idle → addr % 4 = 0 → addr + bytes.length ≤ 1024 →
    s.host = writeBytes addr bytes →
    ∃ t : State, core.run ((bytes.length + 3) / 4) s = .next t ∧ t.host = [] ∧ t.phase = .idle ∧ t.g = s.g ∧
      t.dec = s.dec ∧ t.lerr = s.lerr ∧ t.ferr = s.ferr ∧ t.ovr = s.ovr ∧
      (∀ i < bytes.length, Memory.read (addr + i) t.lmem = bytes[i]?) ∧
      (∀ i, bytes.length ≤ i → i < (bytes.length + 3) / 4 * 4 → Memory.read (addr + i) t.lmem = some 0) ∧
      ∀ a, a < addr ∨ addr + (bytes.length + 3) / 4 * 4 ≤ a → Memory.read a t.lmem = Memory.read a s.lmem

/-- 10_state.md R43: FERR is sticky. A completion with a non-zero code sets it to that code when it holds OK; in every other case it
keeps its value, but that a write of CTRL with bit 0 set, and reset, clear it. -/
def Obligations.FerrIsSticky : Prop :=
  ∀ s t : State, step s = .next t →
    (∀ f, s.phase = .running f → f.wait = 0 → (∀ rest, s.host ≠ .reset :: rest) → s.ferr = .ok → t.lerr ≠ .ok →
      t.ferr = t.lerr) ∧
    (t.ferr ≠ s.ferr →
      (∃ f, s.phase = .running f ∧ f.wait = 0 ∧ s.ferr = .ok ∧ t.lerr ≠ .ok ∧ t.ferr = t.lerr) ∨
      (t.ferr = .ok ∧ ((∃ rest, s.host = .reset :: rest) ∨
        ∃ off w rest, s.host = .write off w :: rest ∧ portReg off = .ctrl ∧ w.getLsbD 0 = true)))

/-- 10_state.md R44: OVR is sticky. A protected write while BUSY = 1 sets it and changes neither LERR nor FERR; nothing else sets
it; and once set only a write of CTRL with bit 0 set, or reset, clears it. -/
def Obligations.OvrIsSticky : Prop :=
  ∀ s t : State, step s = .next t →
    (s.ovr = true → t.ovr = false → (∃ rest, s.host = .reset :: rest) ∨
      ∃ off w rest, s.host = .write off w :: rest ∧ portReg off = .ctrl ∧ w.getLsbD 0 = true) ∧
    (s.ovr = false → t.ovr = true → s.busy = true ∧ ∃ off w rest, s.host = .write off w :: rest ∧
      (portReg off ∈ [PortReg.cmd, .decX, .decY, .decO, .decMk] ∨ (∃ i, portReg off = .reg i) ∨
        ∃ v, portReg off = .lmem v)) ∧
    ∀ off w rest, s.hostInBusyWindow → s.host = .write off w :: rest →
      (portReg off ∈ [PortReg.cmd, .decX, .decY, .decO, .decMk] ∨ (∃ i, portReg off = .reg i) ∨
        ∃ v, portReg off = .lmem v) →
      t.ovr = true ∧ t.lerr = s.lerr ∧ t.ferr = s.ferr ∧ t.g = s.g ∧ t.lmem = s.lmem ∧ t.dec = s.dec

/-- 20_memory.md R81 item 3: G and LMEM change only in a completion step, by a host write while BUSY = 0, or by reset. -/
def Obligations.GAndLmemChangeOnlyByCommandsAndHostWrites : Prop :=
  ∀ s t : State, step s = .next t → (t.g ≠ s.g ∨ t.lmem ≠ s.lmem) →
    (∃ rest, s.host = .reset :: rest) ∨ (∃ f, s.phase = .running f ∧ f.wait = 0) ∨
    (s.phase = .idle ∧ ∃ off w rest, s.host = .write off w :: rest ∧
      ((∃ i, portReg off = .reg i) ∨ ∃ v, portReg off = .lmem v))

/-- 10_state.md R55, 70_reset_and_hazards.md R301: the state after reset, as far as the spec gives it. LMEM has no byte written; no
command is in flight. -/
def Obligations.ResetLeavesTheSpecifiedState : Prop :=
  (∀ i : RegIdx, State.reset.g[i] = 0) ∧ (∀ a, Memory.read a State.reset.lmem = none) ∧
  State.reset.dec = { xbase := 0, ybase := 0, obase := 0, m := 0, k := 0, f := 0 } ∧
  State.reset.lerr = .ok ∧ State.reset.ferr = .ok ∧ State.reset.ovr = false ∧
  State.reset.staged = [] ∧ State.reset.snapshot = none ∧ (∀ f, State.reset.phase ≠ .running f) ∧
  State.reset.portRead .id = 0x47463801

/-- 70_reset_and_hazards.md R300, R303: reset, from any state and also during a command, leaves every register at its reset value,
LMEM unspecified (no byte written), no command in flight, and BUSY as 10_state.md R55 says: the initialisation window opens for some
finite number n of steps, perhaps none, and InitialisationWindowEnds says how it ends. -/
def Obligations.ResetFromAnyState : Prop :=
  ∀ (s : State) (rest : List HostEvent), s.host = .reset :: rest →
    ∃ t : State, step s = .next t ∧ t.g = State.reset.g ∧ t.lmem = State.reset.lmem ∧ t.dec = State.reset.dec ∧
      t.lerr = .ok ∧ t.ferr = .ok ∧ t.ovr = false ∧ t.staged = [] ∧ t.snapshot = none ∧ t.host = rest ∧
      ∃ n : Nat, t.phase = Phase.window n ∧ (t.busy = true ↔ n ≠ 0)

/-- 70_reset_and_hazards.md R302, 10_state.md R44, R45: a step of the initialisation window, whatever the host does but reset, brings
its end one step nearer and keeps G, LMEM and DEC_*; LERR and FERR change only by a CTRL write with bit 0 set, which clears them and
OVR, and OVR else only by a protected write, which sets it. So from every state with `n` steps left after the next one, BUSY is 0
after n + 1 steps in which no reset comes, with no result code produced; and from the reset state after INIT_TIME steps (log 4). The
window is counted in steps (log 2). -/
def Obligations.InitialisationWindowEnds : Prop :=
  (∀ (s : State) (n : Nat), s.phase = .init n → (∀ rest, s.host ≠ .reset :: rest) →
    ∃ t : State, step s = .next t ∧ t.phase = Phase.window n ∧ t.g = s.g ∧ t.lmem = s.lmem ∧ t.dec = s.dec ∧
      (s.writesClear → t.lerr = .ok ∧ t.ferr = .ok ∧ t.ovr = false) ∧
      (s.writesProtected → t.lerr = s.lerr ∧ t.ferr = s.ferr ∧ t.ovr = true) ∧
      (¬ s.writesClear → ¬ s.writesProtected → t.lerr = s.lerr ∧ t.ferr = s.ferr ∧ t.ovr = s.ovr)) ∧
  (∀ (s : State) (n : Nat), s.phase = .init n → HostEvent.reset ∉ s.host →
    ∃ t : State, core.run (n + 1) s = .next t ∧ t.busy = false ∧ t.g = s.g ∧ t.lmem = s.lmem ∧ t.dec = s.dec ∧
      (s.lerr = .ok → t.lerr = .ok) ∧ (s.ferr = .ok → t.ferr = .ok)) ∧
  ∃ t : State, core.run (Config.initTime 0) State.reset = .next t ∧ t.busy = false ∧
    t.g = State.reset.g ∧ t.lmem = [] ∧ t.dec = State.reset.dec ∧ t.lerr = .ok ∧ t.ferr = .ok ∧ t.ovr = false

/-- The invariant of the machine holds at reset. -/
def Obligations.ResetSatisfiesInv : Prop := State.reset.Inv

/-- Every step keeps the invariant: LMEM's canonical form, nothing staged between steps, a first error wherever there is a last
one (10_state.md R42, R43), PARAMS equal to the registers they were taken from (R53; 70 R307), and a clean initialisation
window (70 R302). -/
def Obligations.StepKeepsInv : Prop := ∀ s t : State, s.Inv → step s = .next t → t.Inv
end

