-- ==== Sys2Proof/Laws/Decode.lean ====
section
/-! SUPPORT. Masks and fields of the command word: when the reserved bits of a format are zero, and which opcode decodes to
what. -/

namespace Sys2Proof

/-- The bits of a mask of `n` ones from bit `lo`. -/
theorem mask_getLsbD (lo n i : Nat) :
    (BitVec.ofNat 32 ((2 ^ n - 1) <<< lo)).getLsbD i = (decide (i < 32) && decide (lo ≤ i) && decide (i - lo < n)) := by
  simp [BitVec.getLsbD_ofNat, Nat.testBit_shiftLeft, Nat.testBit_two_pow_sub_one, Bool.and_assoc]

/-- The bits [lo+n-1:lo] of a word are zero exactly when masking them gives zero. -/
theorem and_mask_eq_zero_iff (w : Word) (lo n : Nat) (hn : lo + n ≤ 32) :
    w &&& BitVec.ofNat 32 ((2 ^ n - 1) <<< lo) = 0 ↔ w.extractLsb' lo n = 0 := by
  constructor
  · intro h
    refine BitVec.eq_of_getLsbD_eq fun i hi => ?_
    have := congrArg (fun v : Word => v.getLsbD (lo + i)) h
    simp only [BitVec.getLsbD_and, mask_getLsbD] at this
    simpa [hi, (by omega : lo + i < 32)] using this
  · intro h
    refine BitVec.eq_of_getLsbD_eq fun i hi => ?_
    have := congrArg (fun v : BitVec n => v.getLsbD (i - lo)) h
    simp only [BitVec.getLsbD_and, mask_getLsbD]
    by_cases hlo : lo ≤ i
    · by_cases hin : i - lo < n
      · simpa [hin, Nat.add_sub_cancel' hlo, hlo, hi] using this
      · simp [hin]
    · simp [hlo]

/-- The reserved bits of Format R are bits [13:0] (30_encoding.md R102, R110). -/
theorem reservedR_iff (w : Word) : w &&& 0x00003FFF = 0 ↔ w.extractLsb' 0 14 = 0 :=
  and_mask_eq_zero_iff w 0 14 (by omega)

/-- The reserved bits of Format U are bits [17:0] (R103, R110). -/
theorem reservedU_iff (w : Word) : w &&& 0x0003FFFF = 0 ↔ w.extractLsb' 0 18 = 0 :=
  and_mask_eq_zero_iff w 0 18 (by omega)

/-- The reserved bits of Format D are bits [25:0] (R105, R110). -/
theorem reservedD_iff (w : Word) : w &&& 0x03FFFFFF = 0 ↔ w.extractLsb' 0 26 = 0 :=
  and_mask_eq_zero_iff w 0 26 (by omega)

/-- The reserved bits of Format I are bits [21:8] (R106, R110). -/
theorem reservedI_iff (w : Word) : w &&& 0x003FFF00 = 0 ↔ w.extractLsb' 8 14 = 0 :=
  and_mask_eq_zero_iff w 8 14 (by omega)

/-- The reserved bits of Format M are bits [21:10] (R107, R110). -/
theorem reservedM_iff (w : Word) : w &&& 0x003FFC00 = 0 ↔ w.extractLsb' 10 12 = 0 :=
  and_mask_eq_zero_iff w 10 12 (by omega)

/-- A word whose reserved bits are zero is its command. -/
theorem unlessReserved_of_zero {w rsv : Word} {i : Instr} (h : w &&& rsv = 0) : unlessReserved w rsv i = .instr i :=
  if_pos h

/-- A word with a reserved bit set is illegal. -/
theorem unlessReserved_of_ne {w rsv : Word} {i : Instr} (h : w &&& rsv ≠ 0) :
    unlessReserved w rsv i = .illegal .reservedBits :=
  if_neg h

/-- What `unlessReserved` answers when it answers a command. -/
theorem unlessReserved_eq_instr {w rsv : Word} {i j : Instr} :
    unlessReserved w rsv i = .instr j ↔ w &&& rsv = 0 ∧ i = j := by
  unfold unlessReserved
  split <;> simp_all

/-- The opcode of a word whose masked bits equal the match value of a row, whose mask covers the opcode bits. -/
theorem opcField_of_match {w mask mtch : Word} (hm : mask.extractLsb' 26 6 = 0x3F) (h : w &&& mask = mtch) :
    opcField w = mtch.extractLsb' 26 6 := by
  rw [← h, BitVec.extractLsb'_and, hm]
  exact (BitVec.and_allOnes (x := w.extractLsb' 26 6)).symm

/-- The reserved bits of a word that matches a row are those of the match value, which are zero. -/
theorem reserved_of_match {w mask mtch rsv : Word} (hr : mask &&& rsv = rsv) (hz : mtch &&& rsv = 0)
    (h : w &&& mask = mtch) : w &&& rsv = 0 := by
  rw [← hr, ← BitVec.and_assoc, h, hz]

/-- A field read back from where it was placed. -/
theorem extract_field_self (v : BitVec n) (lo : Nat) (h : lo + n ≤ 32) : (field v lo).extractLsb' lo n = v := by
  refine BitVec.eq_of_getLsbD_eq fun i hi => ?_
  simp [field, hi, (by omega : lo + i < 32)]

/-- A field read where another, disjoint one was placed is 0. -/
theorem extract_field_other (v : BitVec n) (lo lo' n' : Nat) (h : lo + n ≤ lo' ∨ lo' + n' ≤ lo) :
    (field v lo).extractLsb' lo' n' = 0 := by
  refine BitVec.eq_of_getLsbD_eq fun i hi => ?_
  simp only [field, BitVec.getLsbD_extractLsb', hi, BitVec.getLsbD_shiftLeft, BitVec.getLsbD_setWidth]
  by_cases hlt : lo' + i < lo
  · simp [hlt]
  · simp [BitVec.getLsbD_of_ge v (lo' + i - lo) (by omega)]

/-- A field of a word that is put together with `or` is put together from the parts' fields. -/
theorem extract_or (v w : Word) (lo n : Nat) :
    (v ||| w).extractLsb' lo n = v.extractLsb' lo n ||| w.extractLsb' lo n := BitVec.extractLsb'_or

/-! What each assigned opcode decodes to (R117). -/

theorem decode_gadd {w : Word} (h : opcField w = 0x01) :
    decode w = unlessReserved w 0x00003FFF (.gadd (rdField w) (raField w) (rbField w)) := by
  unfold decode
  rw [h]
  rfl

theorem decode_gmul {w : Word} (h : opcField w = 0x02) :
    decode w = unlessReserved w 0x00003FFF (.gmul (rdField w) (raField w) (rbField w)) := by
  unfold decode
  rw [h]
  rfl

theorem decode_ginv {w : Word} (h : opcField w = 0x03) :
    decode w = unlessReserved w 0x0003FFFF (.ginv (rdField w) (raField w)) := by
  unfold decode
  rw [h]
  rfl

theorem decode_peval {w : Word} (h : opcField w = 0x04) :
    decode w = unlessReserved w 0x00000000 (.peval (rdField w) (raField w) (degField w) (addrField w)) := by
  unfold decode
  rw [h]
  rfl

theorem decode_dece {w : Word} (h : opcField w = 0x05) :
    decode w = unlessReserved w 0x03FFFFFF .dece := by
  unfold decode
  rw [h]
  rfl

theorem decode_decbw {w : Word} (h : opcField w = 0x06) :
    decode w = unlessReserved w 0x03FFFFFF .decbw := by
  unfold decode
  rw [h]
  rfl

theorem decode_gldi {w : Word} (h : opcField w = 0x10) :
    decode w = unlessReserved w 0x003FFF00 (.gldi (rdField w) (immField w)) := by
  unfold decode
  rw [h]
  rfl

theorem decode_gld {w : Word} (h : opcField w = 0x11) :
    decode w = unlessReserved w 0x003FFC00 (.gld (rdField w) (addrField w)) := by
  unfold decode
  rw [h]
  rfl

theorem decode_gst {w : Word} (h : opcField w = 0x12) :
    decode w = unlessReserved w 0x003FFC00 (.gst (rdField w) (addrField w)) := by
  unfold decode
  rw [h]
  rfl

/-- The opcodes that are assigned (R108). -/
def assignedOpcodes : List (BitVec 6) := [0x01, 0x02, 0x03, 0x04, 0x05, 0x06, 0x10, 0x11, 0x12]

/-- Every other opcode is reserved (R111). -/
theorem decode_reserved {w : Word} (h : opcField w ∉ assignedOpcodes) : decode w = .illegal .reservedOpcode := by
  unfold decode
  generalize opcField w = o at h
  split <;> first
    | rfl
    | (exfalso; rename_i e; apply h; rw [show o = BitVec.ofNat 6 o.toNat by simp, e]; decide)

end Sys2Proof
end

