-- ==== Sys2Proof/Laws/Memory.lean ====
section
/-! SUPPORT. LMEM: a read after a write, and that every memory operation keeps the canonical form. -/

namespace Sys2Proof.Machine

@[simp] theorem Memory.read_nil (a : Nat) : Memory.read a [] = none := rfl

theorem Memory.read_insert_self (a : Nat) (v : Elem) (m : Memory) :
    Memory.read a (Memory.insert a v m) = some v := by
  induction m with
  | nil => simp [Memory.insert, Memory.read]
  | cons c rest ih =>
    obtain ⟨b, w⟩ := c
    unfold Memory.insert
    split
    · simp [Memory.read]
    · split
      · simp [Memory.read]
      · rename_i h
        simp [Memory.read, Ne.symm h, ih]

theorem Memory.read_insert_of_ne {a b : Nat} (h : a ≠ b) (v : Elem) (m : Memory) :
    Memory.read a (Memory.insert b v m) = Memory.read a m := by
  induction m with
  | nil => simp [Memory.insert, Memory.read, Ne.symm h]
  | cons c rest ih =>
    obtain ⟨d, w⟩ := c
    unfold Memory.insert
    split
    · simp [Memory.read, Ne.symm h]
    · split
      · rename_i e
        subst e
        simp [Memory.read, Ne.symm h]
      · simp only [Memory.read, ih]

theorem Memory.mem_insert {a : Nat} {v : Elem} {m : Memory} {c : Host.Cell}
    (h : c ∈ Memory.insert a v m) : c = (a, v) ∨ c ∈ m := by
  induction m with
  | nil => simpa [Memory.insert] using h
  | cons d rest ih =>
    obtain ⟨b, w⟩ := d
    unfold Memory.insert at h
    split at h
    · simpa using h
    · split at h
      · rcases List.mem_cons.1 h with h | h
        · exact .inl h
        · exact .inr (List.mem_cons_of_mem _ h)
      · rcases List.mem_cons.1 h with h | h
        · exact .inr (by simp [h])
        · exact (ih h).imp id (List.mem_cons_of_mem _)

theorem Memory.insert_wf {a : Nat} (ha : a < Config.lmemSize) (v : Elem) {m : Memory} (h : Memory.wf m) :
    Memory.wf (Memory.insert a v m) := by
  refine ⟨?_, fun c hc => (Memory.mem_insert hc).elim (fun e => e ▸ ha) (h.2 c)⟩
  obtain ⟨hp, -⟩ := h
  induction m with
  | nil => simp [Memory.insert]
  | cons d rest ih =>
    obtain ⟨b, w⟩ := d
    obtain ⟨hb, hrest⟩ := List.pairwise_cons.1 hp
    unfold Memory.insert
    split
    · rename_i hab
      refine List.pairwise_cons.2 ⟨fun c hc => ?_, hp⟩
      rcases List.mem_cons.1 hc with rfl | hc
      · exact hab
      · exact hab.trans (hb c hc)
    · split
      · rename_i e
        subst e
        exact List.pairwise_cons.2 ⟨hb, hrest⟩
      · refine List.pairwise_cons.2 ⟨fun c hc => ?_, ih hrest⟩
        rcases Memory.mem_insert hc with rfl | hc
        · exact show b < a by omega
        · exact hb c hc

/-- Every write keeps the canonical form. -/
theorem Memory.write_wf (a : Nat) (v : Elem) {m : Memory} (h : Memory.wf m) : Memory.wf (Memory.write a v m) := by
  unfold Memory.write
  split
  · exact Memory.insert_wf ‹_› v h
  · exact h

/-- A read after a write of the same byte. -/
theorem Memory.read_write_self {a : Nat} (ha : a < Config.lmemSize) (v : Elem) (m : Memory) :
    Memory.read a (Memory.write a v m) = some v := by
  simp [Memory.write, ha, Memory.read_insert_self]

/-- A write leaves every other byte alone. -/
theorem Memory.read_write_of_ne {a b : Nat} (h : a ≠ b) (v : Elem) (m : Memory) :
    Memory.read a (Memory.write b v m) = Memory.read a m := by
  unfold Memory.write
  split
  · exact Memory.read_insert_of_ne h v m
  · rfl

/-- No byte is listed below the first address of a canonical memory. -/
theorem Memory.read_eq_none_of_lt {m : Memory} {a : Nat} (h : ∀ c ∈ m, a < c.1) : Memory.read a m = none := by
  induction m with
  | nil => rfl
  | cons c rest ih =>
    obtain ⟨b, v⟩ := c
    have hb : a < b := h (b, v) (by simp)
    simp only [Memory.read, if_neg (by omega : ¬ b = a)]
    exact ih fun c hc => h c (List.mem_cons_of_mem _ hc)

/-- Equal reads, equal memories: the form is canonical. -/
theorem Memory.ext_of_read {m n : Memory} (hm : Memory.wf m) (hn : Memory.wf n)
    (h : ∀ a, Memory.read a m = Memory.read a n) : m = n := by
  obtain ⟨hm, -⟩ := hm
  obtain ⟨hn, -⟩ := hn
  induction m generalizing n with
  | nil =>
    cases n with
    | nil => rfl
    | cons c n => simpa [Memory.read] using h c.1
  | cons c m ih =>
    cases n with
    | nil => simpa [Memory.read] using h c.1
    | cons d n =>
      obtain ⟨a, v⟩ := c
      obtain ⟨b, w⟩ := d
      obtain ⟨ha, hm'⟩ := List.pairwise_cons.1 hm
      obtain ⟨hb, hn'⟩ := List.pairwise_cons.1 hn
      have hab : a = b := by
        rcases lt_trichotomy a b with hlt | rfl | hlt
        · have := h a
          simp only [Memory.read, if_true, if_neg (by omega : ¬ b = a)] at this
          rw [Memory.read_eq_none_of_lt fun c hc => hlt.trans (hb c hc)] at this
          cases this
        · rfl
        · have := h b
          simp only [Memory.read, if_true, if_neg (by omega : ¬ a = b)] at this
          rw [Memory.read_eq_none_of_lt fun c hc => hlt.trans (ha c hc)] at this
          cases this
      subst hab
      have hvw : v = w := by simpa [Memory.read] using h a
      subst hvw
      refine congrArg _ (ih (fun x => ?_) hm' hn')
      by_cases hx : a = x
      · subst hx
        rw [Memory.read_eq_none_of_lt ha, Memory.read_eq_none_of_lt hb]
      · simpa [Memory.read, hx] using h x

end Sys2Proof.Machine
end

