-- ==== Sys2Proof/Laws/State.lean ====
section
/-! SUPPORT. One lemma per field per state update, true by unfolding the update once, so that no later proof unfolds a record
update. -/

namespace Sys2Proof.Machine

/-- Two states with equal fields are equal. -/
@[ext] theorem State.ext {s t : State} (g : s.g = t.g) (lmem : s.lmem = t.lmem) (dec : s.dec = t.dec)
    (lerr : s.lerr = t.lerr) (ferr : s.ferr = t.ferr) (ovr : s.ovr = t.ovr) (phase : s.phase = t.phase)
    (staged : s.staged = t.staged) (prdata : s.prdata = t.prdata) (pready : s.pready = t.pready)
    (host : s.host = t.host) (draws : s.draws = t.draws) : s = t := by
  cases s
  cases t
  simp_all

@[simp] theorem State.writeReg_g (i : RegIdx) (v : Elem) (s : State) : (s.writeReg i v).g = s.g.set i v := rfl
@[simp] theorem State.writeReg_lmem (i : RegIdx) (v : Elem) (s : State) : (s.writeReg i v).lmem = s.lmem := rfl
@[simp] theorem State.writeReg_dec (i : RegIdx) (v : Elem) (s : State) : (s.writeReg i v).dec = s.dec := rfl
@[simp] theorem State.writeReg_lerr (i : RegIdx) (v : Elem) (s : State) : (s.writeReg i v).lerr = s.lerr := rfl
@[simp] theorem State.writeReg_ferr (i : RegIdx) (v : Elem) (s : State) : (s.writeReg i v).ferr = s.ferr := rfl
@[simp] theorem State.writeReg_ovr (i : RegIdx) (v : Elem) (s : State) : (s.writeReg i v).ovr = s.ovr := rfl
@[simp] theorem State.writeReg_phase (i : RegIdx) (v : Elem) (s : State) : (s.writeReg i v).phase = s.phase := rfl
@[simp] theorem State.writeReg_staged (i : RegIdx) (v : Elem) (s : State) : (s.writeReg i v).staged = s.staged := rfl
@[simp] theorem State.writeReg_prdata (i : RegIdx) (v : Elem) (s : State) : (s.writeReg i v).prdata = s.prdata := rfl
@[simp] theorem State.writeReg_pready (i : RegIdx) (v : Elem) (s : State) : (s.writeReg i v).pready = s.pready := rfl
@[simp] theorem State.writeReg_host (i : RegIdx) (v : Elem) (s : State) : (s.writeReg i v).host = s.host := rfl
@[simp] theorem State.writeReg_draws (i : RegIdx) (v : Elem) (s : State) : (s.writeReg i v).draws = s.draws := rfl

@[simp] theorem State.storeByte_g (a : Nat) (v : Elem) (s : State) : (s.storeByte a v).g = s.g := rfl
@[simp] theorem State.storeByte_lmem (a : Nat) (v : Elem) (s : State) : (s.storeByte a v).lmem = Memory.write a v s.lmem := rfl
@[simp] theorem State.storeByte_dec (a : Nat) (v : Elem) (s : State) : (s.storeByte a v).dec = s.dec := rfl
@[simp] theorem State.storeByte_lerr (a : Nat) (v : Elem) (s : State) : (s.storeByte a v).lerr = s.lerr := rfl
@[simp] theorem State.storeByte_ferr (a : Nat) (v : Elem) (s : State) : (s.storeByte a v).ferr = s.ferr := rfl
@[simp] theorem State.storeByte_ovr (a : Nat) (v : Elem) (s : State) : (s.storeByte a v).ovr = s.ovr := rfl
@[simp] theorem State.storeByte_phase (a : Nat) (v : Elem) (s : State) : (s.storeByte a v).phase = s.phase := rfl
@[simp] theorem State.storeByte_staged (a : Nat) (v : Elem) (s : State) : (s.storeByte a v).staged = s.staged := rfl
@[simp] theorem State.storeByte_prdata (a : Nat) (v : Elem) (s : State) : (s.storeByte a v).prdata = s.prdata := rfl
@[simp] theorem State.storeByte_pready (a : Nat) (v : Elem) (s : State) : (s.storeByte a v).pready = s.pready := rfl
@[simp] theorem State.storeByte_host (a : Nat) (v : Elem) (s : State) : (s.storeByte a v).host = s.host := rfl
@[simp] theorem State.storeByte_draws (a : Nat) (v : Elem) (s : State) : (s.storeByte a v).draws = s.draws := rfl

@[simp] theorem State.recordResult_g (c : ResultCode) (s : State) : (s.recordResult c).g = s.g := rfl
@[simp] theorem State.recordResult_lmem (c : ResultCode) (s : State) : (s.recordResult c).lmem = s.lmem := rfl
@[simp] theorem State.recordResult_dec (c : ResultCode) (s : State) : (s.recordResult c).dec = s.dec := rfl
@[simp] theorem State.recordResult_lerr (c : ResultCode) (s : State) : (s.recordResult c).lerr = c := rfl
@[simp] theorem State.recordResult_ferr (c : ResultCode) (s : State) : (s.recordResult c).ferr = if c ≠ .ok ∧ s.ferr = .ok then c else s.ferr := rfl
@[simp] theorem State.recordResult_ovr (c : ResultCode) (s : State) : (s.recordResult c).ovr = s.ovr := rfl
@[simp] theorem State.recordResult_phase (c : ResultCode) (s : State) : (s.recordResult c).phase = s.phase := rfl
@[simp] theorem State.recordResult_staged (c : ResultCode) (s : State) : (s.recordResult c).staged = s.staged := rfl
@[simp] theorem State.recordResult_prdata (c : ResultCode) (s : State) : (s.recordResult c).prdata = s.prdata := rfl
@[simp] theorem State.recordResult_pready (c : ResultCode) (s : State) : (s.recordResult c).pready = s.pready := rfl
@[simp] theorem State.recordResult_host (c : ResultCode) (s : State) : (s.recordResult c).host = s.host := rfl
@[simp] theorem State.recordResult_draws (c : ResultCode) (s : State) : (s.recordResult c).draws = s.draws := rfl

@[simp] theorem State.clearErrors_g (s : State) : s.clearErrors.g = s.g := rfl
@[simp] theorem State.clearErrors_lmem (s : State) : s.clearErrors.lmem = s.lmem := rfl
@[simp] theorem State.clearErrors_dec (s : State) : s.clearErrors.dec = s.dec := rfl
@[simp] theorem State.clearErrors_lerr (s : State) : s.clearErrors.lerr = .ok := rfl
@[simp] theorem State.clearErrors_ferr (s : State) : s.clearErrors.ferr = .ok := rfl
@[simp] theorem State.clearErrors_ovr (s : State) : s.clearErrors.ovr = false := rfl
@[simp] theorem State.clearErrors_phase (s : State) : s.clearErrors.phase = s.phase := rfl
@[simp] theorem State.clearErrors_staged (s : State) : s.clearErrors.staged = s.staged := rfl
@[simp] theorem State.clearErrors_prdata (s : State) : s.clearErrors.prdata = s.prdata := rfl
@[simp] theorem State.clearErrors_pready (s : State) : s.clearErrors.pready = s.pready := rfl
@[simp] theorem State.clearErrors_host (s : State) : s.clearErrors.host = s.host := rfl
@[simp] theorem State.clearErrors_draws (s : State) : s.clearErrors.draws = s.draws := rfl

@[simp] theorem State.setOvr_g (s : State) : s.setOvr.g = s.g := rfl
@[simp] theorem State.setOvr_lmem (s : State) : s.setOvr.lmem = s.lmem := rfl
@[simp] theorem State.setOvr_dec (s : State) : s.setOvr.dec = s.dec := rfl
@[simp] theorem State.setOvr_lerr (s : State) : s.setOvr.lerr = s.lerr := rfl
@[simp] theorem State.setOvr_ferr (s : State) : s.setOvr.ferr = s.ferr := rfl
@[simp] theorem State.setOvr_ovr (s : State) : s.setOvr.ovr = true := rfl
@[simp] theorem State.setOvr_phase (s : State) : s.setOvr.phase = s.phase := rfl
@[simp] theorem State.setOvr_staged (s : State) : s.setOvr.staged = s.staged := rfl
@[simp] theorem State.setOvr_prdata (s : State) : s.setOvr.prdata = s.prdata := rfl
@[simp] theorem State.setOvr_pready (s : State) : s.setOvr.pready = s.pready := rfl
@[simp] theorem State.setOvr_host (s : State) : s.setOvr.host = s.host := rfl
@[simp] theorem State.setOvr_draws (s : State) : s.setOvr.draws = s.draws := rfl

@[simp] theorem State.accept_g (w : Word) (s : State) : (s.accept w).g = s.g := rfl
@[simp] theorem State.accept_lmem (w : Word) (s : State) : (s.accept w).lmem = s.lmem := rfl
@[simp] theorem State.accept_dec (w : Word) (s : State) : (s.accept w).dec = s.dec := rfl
@[simp] theorem State.accept_lerr (w : Word) (s : State) : (s.accept w).lerr = s.lerr := rfl
@[simp] theorem State.accept_ferr (w : Word) (s : State) : (s.accept w).ferr = s.ferr := rfl
@[simp] theorem State.accept_ovr (w : Word) (s : State) : (s.accept w).ovr = s.ovr := rfl
@[simp] theorem State.accept_phase (w : Word) (s : State) : (s.accept w).phase = .running { cl := w, params := s.dec, wait := Config.lat s.draws w } := rfl
@[simp] theorem State.accept_staged (w : Word) (s : State) : (s.accept w).staged = s.staged := rfl
@[simp] theorem State.accept_prdata (w : Word) (s : State) : (s.accept w).prdata = s.prdata := rfl
@[simp] theorem State.accept_pready (w : Word) (s : State) : (s.accept w).pready = s.pready := rfl
@[simp] theorem State.accept_host (w : Word) (s : State) : (s.accept w).host = s.host := rfl
@[simp] theorem State.accept_draws (w : Word) (s : State) : (s.accept w).draws = s.draws := rfl

@[simp] theorem State.stage_g (ws : List Write) (s : State) : (s.stage ws).g = s.g := rfl
@[simp] theorem State.stage_lmem (ws : List Write) (s : State) : (s.stage ws).lmem = s.lmem := rfl
@[simp] theorem State.stage_dec (ws : List Write) (s : State) : (s.stage ws).dec = s.dec := rfl
@[simp] theorem State.stage_lerr (ws : List Write) (s : State) : (s.stage ws).lerr = s.lerr := rfl
@[simp] theorem State.stage_ferr (ws : List Write) (s : State) : (s.stage ws).ferr = s.ferr := rfl
@[simp] theorem State.stage_ovr (ws : List Write) (s : State) : (s.stage ws).ovr = s.ovr := rfl
@[simp] theorem State.stage_phase (ws : List Write) (s : State) : (s.stage ws).phase = s.phase := rfl
@[simp] theorem State.stage_staged (ws : List Write) (s : State) : (s.stage ws).staged = ws := rfl
@[simp] theorem State.stage_prdata (ws : List Write) (s : State) : (s.stage ws).prdata = s.prdata := rfl
@[simp] theorem State.stage_pready (ws : List Write) (s : State) : (s.stage ws).pready = s.pready := rfl
@[simp] theorem State.stage_host (ws : List Write) (s : State) : (s.stage ws).host = s.host := rfl
@[simp] theorem State.stage_draws (ws : List Write) (s : State) : (s.stage ws).draws = s.draws := rfl

@[simp] theorem State.resetBy_g (rest : List HostEvent) (s : State) : (s.resetBy rest).g = Vector.replicate 16 0 := rfl
@[simp] theorem State.resetBy_lmem (rest : List HostEvent) (s : State) : (s.resetBy rest).lmem = [] := rfl
@[simp] theorem State.resetBy_dec (rest : List HostEvent) (s : State) : (s.resetBy rest).dec = Params.zero := rfl
@[simp] theorem State.resetBy_lerr (rest : List HostEvent) (s : State) : (s.resetBy rest).lerr = .ok := rfl
@[simp] theorem State.resetBy_ferr (rest : List HostEvent) (s : State) : (s.resetBy rest).ferr = .ok := rfl
@[simp] theorem State.resetBy_ovr (rest : List HostEvent) (s : State) : (s.resetBy rest).ovr = false := rfl
@[simp] theorem State.resetBy_phase (rest : List HostEvent) (s : State) : (s.resetBy rest).phase = Phase.window (Config.initTime (s.draws + 1)) := rfl
@[simp] theorem State.resetBy_staged (rest : List HostEvent) (s : State) : (s.resetBy rest).staged = [] := rfl
@[simp] theorem State.resetBy_prdata (rest : List HostEvent) (s : State) : (s.resetBy rest).prdata = 0 := rfl
@[simp] theorem State.resetBy_pready (rest : List HostEvent) (s : State) : (s.resetBy rest).pready = false := rfl
@[simp] theorem State.resetBy_host (rest : List HostEvent) (s : State) : (s.resetBy rest).host = rest := rfl
@[simp] theorem State.resetBy_draws (rest : List HostEvent) (s : State) : (s.resetBy rest).draws = s.draws + 1 := rfl

@[simp] theorem State.writeWindow_g (w : BitVec 8) (data : Word) (s : State) : (s.writeWindow w data).g = s.g := rfl
@[simp] theorem State.writeWindow_dec (w : BitVec 8) (data : Word) (s : State) : (s.writeWindow w data).dec = s.dec := rfl
@[simp] theorem State.writeWindow_lerr (w : BitVec 8) (data : Word) (s : State) : (s.writeWindow w data).lerr = s.lerr := rfl
@[simp] theorem State.writeWindow_ferr (w : BitVec 8) (data : Word) (s : State) : (s.writeWindow w data).ferr = s.ferr := rfl
@[simp] theorem State.writeWindow_ovr (w : BitVec 8) (data : Word) (s : State) : (s.writeWindow w data).ovr = s.ovr := rfl
@[simp] theorem State.writeWindow_phase (w : BitVec 8) (data : Word) (s : State) : (s.writeWindow w data).phase = s.phase := rfl
@[simp] theorem State.writeWindow_staged (w : BitVec 8) (data : Word) (s : State) : (s.writeWindow w data).staged = s.staged := rfl
@[simp] theorem State.writeWindow_prdata (w : BitVec 8) (data : Word) (s : State) : (s.writeWindow w data).prdata = s.prdata := rfl
@[simp] theorem State.writeWindow_pready (w : BitVec 8) (data : Word) (s : State) : (s.writeWindow w data).pready = s.pready := rfl
@[simp] theorem State.writeWindow_host (w : BitVec 8) (data : Word) (s : State) : (s.writeWindow w data).host = s.host := rfl
@[simp] theorem State.writeWindow_draws (w : BitVec 8) (data : Word) (s : State) : (s.writeWindow w data).draws = s.draws := rfl

@[simp] theorem State.noTransaction_g (s : State) : s.noTransaction.g = s.g := rfl
@[simp] theorem State.noTransaction_lmem (s : State) : s.noTransaction.lmem = s.lmem := rfl
@[simp] theorem State.noTransaction_dec (s : State) : s.noTransaction.dec = s.dec := rfl
@[simp] theorem State.noTransaction_lerr (s : State) : s.noTransaction.lerr = s.lerr := rfl
@[simp] theorem State.noTransaction_ferr (s : State) : s.noTransaction.ferr = s.ferr := rfl
@[simp] theorem State.noTransaction_ovr (s : State) : s.noTransaction.ovr = s.ovr := rfl
@[simp] theorem State.noTransaction_phase (s : State) : s.noTransaction.phase = s.phase := rfl
@[simp] theorem State.noTransaction_staged (s : State) : s.noTransaction.staged = s.staged := rfl
@[simp] theorem State.noTransaction_prdata (s : State) : s.noTransaction.prdata = s.prdata := rfl
@[simp] theorem State.noTransaction_pready (s : State) : s.noTransaction.pready = false := rfl
@[simp] theorem State.noTransaction_host (s : State) : s.noTransaction.host = s.host := rfl
@[simp] theorem State.noTransaction_draws (s : State) : s.noTransaction.draws = s.draws := rfl

@[simp] theorem State.performRead_g (off : PortOffset) (s : State) : (s.performRead off).g = s.g := rfl
@[simp] theorem State.performRead_lmem (off : PortOffset) (s : State) : (s.performRead off).lmem = s.lmem := rfl
@[simp] theorem State.performRead_dec (off : PortOffset) (s : State) : (s.performRead off).dec = s.dec := rfl
@[simp] theorem State.performRead_lerr (off : PortOffset) (s : State) : (s.performRead off).lerr = s.lerr := rfl
@[simp] theorem State.performRead_ferr (off : PortOffset) (s : State) : (s.performRead off).ferr = s.ferr := rfl
@[simp] theorem State.performRead_ovr (off : PortOffset) (s : State) : (s.performRead off).ovr = s.ovr := rfl
@[simp] theorem State.performRead_phase (off : PortOffset) (s : State) : (s.performRead off).phase = s.phase := rfl
@[simp] theorem State.performRead_staged (off : PortOffset) (s : State) : (s.performRead off).staged = s.staged := rfl
@[simp] theorem State.performRead_prdata (off : PortOffset) (s : State) : (s.performRead off).prdata = s.portRead (portReg off) := rfl
@[simp] theorem State.performRead_pready (off : PortOffset) (s : State) : (s.performRead off).pready = true := rfl
@[simp] theorem State.performRead_host (off : PortOffset) (s : State) : (s.performRead off).host = s.host := rfl
@[simp] theorem State.performRead_draws (off : PortOffset) (s : State) : (s.performRead off).draws = s.draws + 1 := rfl

@[simp] theorem State.performPoll_g (s : State) : s.performPoll.g = s.g := rfl
@[simp] theorem State.performPoll_lmem (s : State) : s.performPoll.lmem = s.lmem := rfl
@[simp] theorem State.performPoll_dec (s : State) : s.performPoll.dec = s.dec := rfl
@[simp] theorem State.performPoll_lerr (s : State) : s.performPoll.lerr = s.lerr := rfl
@[simp] theorem State.performPoll_ferr (s : State) : s.performPoll.ferr = s.ferr := rfl
@[simp] theorem State.performPoll_ovr (s : State) : s.performPoll.ovr = s.ovr := rfl
@[simp] theorem State.performPoll_phase (s : State) : s.performPoll.phase = s.phase := rfl
@[simp] theorem State.performPoll_staged (s : State) : s.performPoll.staged = s.staged := rfl
@[simp] theorem State.performPoll_prdata (s : State) : s.performPoll.prdata = s.statusWord := rfl
@[simp] theorem State.performPoll_pready (s : State) : s.performPoll.pready = true := rfl
@[simp] theorem State.performPoll_host (s : State) : s.performPoll.host = s.host := rfl
@[simp] theorem State.performPoll_draws (s : State) : s.performPoll.draws = s.draws := rfl

/-! The updates that act by cases. -/

@[simp] theorem State.applyWrite_dec (s : State) (w : Write) : (s.applyWrite w).dec = s.dec := by cases w <;> rfl
@[simp] theorem State.applyWrite_lerr (s : State) (w : Write) : (s.applyWrite w).lerr = s.lerr := by cases w <;> rfl
@[simp] theorem State.applyWrite_ferr (s : State) (w : Write) : (s.applyWrite w).ferr = s.ferr := by cases w <;> rfl
@[simp] theorem State.applyWrite_ovr (s : State) (w : Write) : (s.applyWrite w).ovr = s.ovr := by cases w <;> rfl
@[simp] theorem State.applyWrite_phase (s : State) (w : Write) : (s.applyWrite w).phase = s.phase := by cases w <;> rfl
@[simp] theorem State.applyWrite_staged (s : State) (w : Write) : (s.applyWrite w).staged = s.staged := by cases w <;> rfl
@[simp] theorem State.applyWrite_prdata (s : State) (w : Write) : (s.applyWrite w).prdata = s.prdata := by cases w <;> rfl
@[simp] theorem State.applyWrite_pready (s : State) (w : Write) : (s.applyWrite w).pready = s.pready := by cases w <;> rfl
@[simp] theorem State.applyWrite_host (s : State) (w : Write) : (s.applyWrite w).host = s.host := by cases w <;> rfl
@[simp] theorem State.applyWrite_draws (s : State) (w : Write) : (s.applyWrite w).draws = s.draws := by cases w <;> rfl

@[simp] theorem State.foldl_applyWrite_dec (ws : List Write) (s : State) :
    (ws.foldl State.applyWrite s).dec = s.dec := by
  induction ws generalizing s with
  | nil => rfl
  | cons w ws ih => simp [ih]

@[simp] theorem State.foldl_applyWrite_lerr (ws : List Write) (s : State) :
    (ws.foldl State.applyWrite s).lerr = s.lerr := by
  induction ws generalizing s with
  | nil => rfl
  | cons w ws ih => simp [ih]

@[simp] theorem State.foldl_applyWrite_ferr (ws : List Write) (s : State) :
    (ws.foldl State.applyWrite s).ferr = s.ferr := by
  induction ws generalizing s with
  | nil => rfl
  | cons w ws ih => simp [ih]

@[simp] theorem State.foldl_applyWrite_ovr (ws : List Write) (s : State) :
    (ws.foldl State.applyWrite s).ovr = s.ovr := by
  induction ws generalizing s with
  | nil => rfl
  | cons w ws ih => simp [ih]

@[simp] theorem State.foldl_applyWrite_phase (ws : List Write) (s : State) :
    (ws.foldl State.applyWrite s).phase = s.phase := by
  induction ws generalizing s with
  | nil => rfl
  | cons w ws ih => simp [ih]

@[simp] theorem State.foldl_applyWrite_staged (ws : List Write) (s : State) :
    (ws.foldl State.applyWrite s).staged = s.staged := by
  induction ws generalizing s with
  | nil => rfl
  | cons w ws ih => simp [ih]

@[simp] theorem State.foldl_applyWrite_prdata (ws : List Write) (s : State) :
    (ws.foldl State.applyWrite s).prdata = s.prdata := by
  induction ws generalizing s with
  | nil => rfl
  | cons w ws ih => simp [ih]

@[simp] theorem State.foldl_applyWrite_pready (ws : List Write) (s : State) :
    (ws.foldl State.applyWrite s).pready = s.pready := by
  induction ws generalizing s with
  | nil => rfl
  | cons w ws ih => simp [ih]

@[simp] theorem State.foldl_applyWrite_host (ws : List Write) (s : State) :
    (ws.foldl State.applyWrite s).host = s.host := by
  induction ws generalizing s with
  | nil => rfl
  | cons w ws ih => simp [ih]

@[simp] theorem State.foldl_applyWrite_draws (ws : List Write) (s : State) :
    (ws.foldl State.applyWrite s).draws = s.draws := by
  induction ws generalizing s with
  | nil => rfl
  | cons w ws ih => simp [ih]

@[simp] theorem State.commit_dec (s : State) : s.commit.dec = s.dec := by simp [State.commit]
@[simp] theorem State.commit_lerr (s : State) : s.commit.lerr = s.lerr := by simp [State.commit]
@[simp] theorem State.commit_ferr (s : State) : s.commit.ferr = s.ferr := by simp [State.commit]
@[simp] theorem State.commit_ovr (s : State) : s.commit.ovr = s.ovr := by simp [State.commit]
@[simp] theorem State.commit_phase (s : State) : s.commit.phase = s.phase := by simp [State.commit]
@[simp] theorem State.commit_staged (s : State) : s.commit.staged = s.staged := by simp [State.commit]
@[simp] theorem State.commit_prdata (s : State) : s.commit.prdata = s.prdata := by simp [State.commit]
@[simp] theorem State.commit_pready (s : State) : s.commit.pready = s.pready := by simp [State.commit]
@[simp] theorem State.commit_host (s : State) : s.commit.host = s.host := by simp [State.commit]
@[simp] theorem State.commit_draws (s : State) : s.commit.draws = s.draws := by simp [State.commit]

@[simp] theorem State.tick_g (s : State) : s.tick.g = s.g := by unfold State.tick; split <;> rfl
@[simp] theorem State.tick_lmem (s : State) : s.tick.lmem = s.lmem := by unfold State.tick; split <;> rfl
@[simp] theorem State.tick_dec (s : State) : s.tick.dec = s.dec := by unfold State.tick; split <;> rfl
@[simp] theorem State.tick_lerr (s : State) : s.tick.lerr = s.lerr := by unfold State.tick; split <;> rfl
@[simp] theorem State.tick_ferr (s : State) : s.tick.ferr = s.ferr := by unfold State.tick; split <;> rfl
@[simp] theorem State.tick_ovr (s : State) : s.tick.ovr = s.ovr := by unfold State.tick; split <;> rfl
@[simp] theorem State.tick_staged (s : State) : s.tick.staged = s.staged := by unfold State.tick; split <;> rfl
@[simp] theorem State.tick_prdata (s : State) : s.tick.prdata = s.prdata := by unfold State.tick; split <;> rfl
@[simp] theorem State.tick_pready (s : State) : s.tick.pready = s.pready := by unfold State.tick; split <;> rfl
@[simp] theorem State.tick_host (s : State) : s.tick.host = s.host := by unfold State.tick; split <;> rfl
@[simp] theorem State.tick_draws (s : State) : s.tick.draws = s.draws := by unfold State.tick; split <;> rfl
@[simp] theorem State.portWrite_staged (s : State) (data : Word) (r : PortReg) : (s.portWrite data r).staged = s.staged := by
  cases r <;> simp only [State.portWrite, State.unlessBusy] <;> (try split) <;> simp
@[simp] theorem State.portWrite_prdata (s : State) (data : Word) (r : PortReg) : (s.portWrite data r).prdata = s.prdata := by
  cases r <;> simp only [State.portWrite, State.unlessBusy] <;> (try split) <;> simp
@[simp] theorem State.portWrite_pready (s : State) (data : Word) (r : PortReg) : (s.portWrite data r).pready = s.pready := by
  cases r <;> simp only [State.portWrite, State.unlessBusy] <;> (try split) <;> simp
@[simp] theorem State.portWrite_host (s : State) (data : Word) (r : PortReg) : (s.portWrite data r).host = s.host := by
  cases r <;> simp only [State.portWrite, State.unlessBusy] <;> (try split) <;> simp
@[simp] theorem State.portWrite_draws (s : State) (data : Word) (r : PortReg) : (s.portWrite data r).draws = s.draws := by
  cases r <;> simp only [State.portWrite, State.unlessBusy] <;> (try split) <;> simp

/-! The completion step, field by field (60_exceptions.md R263). -/

theorem State.complete_ok_g (s : State) : (s.complete .ok).g = s.commit.g := rfl
theorem State.complete_error_g (c : ResultCode) (s : State) (h : c ≠ .ok) : (s.complete c).g = s.g := by
  simp [State.complete, h]
theorem State.complete_ok_lmem (s : State) : (s.complete .ok).lmem = s.commit.lmem := rfl
theorem State.complete_error_lmem (c : ResultCode) (s : State) (h : c ≠ .ok) : (s.complete c).lmem = s.lmem := by
  simp [State.complete, h]
@[simp] theorem State.complete_dec (c : ResultCode) (s : State) : (s.complete c).dec = s.dec := by
  unfold State.complete; split <;> simp
@[simp] theorem State.complete_lerr (c : ResultCode) (s : State) : (s.complete c).lerr = c := by
  unfold State.complete; split <;> simp
@[simp] theorem State.complete_ferr (c : ResultCode) (s : State) :
    (s.complete c).ferr = if c ≠ .ok ∧ s.ferr = .ok then c else s.ferr := by
  unfold State.complete; split <;> simp
@[simp] theorem State.complete_ovr (c : ResultCode) (s : State) : (s.complete c).ovr = s.ovr := by
  unfold State.complete; split <;> simp
@[simp] theorem State.complete_phase (c : ResultCode) (s : State) : (s.complete c).phase = .idle := by
  unfold State.complete; split <;> simp
@[simp] theorem State.complete_staged (c : ResultCode) (s : State) : (s.complete c).staged = [] := by
  unfold State.complete; split <;> simp
@[simp] theorem State.complete_prdata (c : ResultCode) (s : State) : (s.complete c).prdata = s.prdata := by
  unfold State.complete; split <;> simp
@[simp] theorem State.complete_pready (c : ResultCode) (s : State) : (s.complete c).pready = s.pready := by
  unfold State.complete; split <;> simp
@[simp] theorem State.complete_host (c : ResultCode) (s : State) : (s.complete c).host = s.host := by
  unfold State.complete; split <;> simp
@[simp] theorem State.complete_draws (c : ResultCode) (s : State) : (s.complete c).draws = s.draws + 1 := by
  unfold State.complete; split <;> simp

end Sys2Proof.Machine
end

