-- ==== Sys2Proof/Laws/Ops.lean ====
section
/-! SUPPORT. What the shared operations do, said once: completion, the end of a command, operand reads, the common checks of the
decodes, and the port. -/

namespace Sys2Proof.Machine

/-! ### Ending a command -/

/-- A command that ends with an error code changes only LERR, FERR and the hidden state (60_exceptions.md R263, R264). -/
theorem State.complete_of_error (s : State) {c : ResultCode} (h : c ≠ .ok) :
    s.complete c = { s with
      lerr := c, ferr := if s.ferr = .ok then c else s.ferr, phase := .idle, staged := [], draws := s.draws + 1 } := by
  simp [State.complete, State.recordResult, h]

/-- A command that ends with OK commits its staged writes, and FERR keeps its value (10_state.md R43). -/
theorem State.complete_of_ok (s : State) :
    s.complete .ok = { s with
      g := s.commit.g, lmem := s.commit.lmem, lerr := .ok, phase := .idle, staged := [], draws := s.draws + 1 } := by
  have h : s.complete .ok =
      { s.commit with lerr := .ok, ferr := s.commit.ferr, phase := .idle, staged := [], draws := s.commit.draws + 1 } := rfl
  rw [h]
  simp

@[simp] theorem State.finish_error (s : State) (c : ResultCode) : s.finish (.error c) = s.complete c := rfl

@[simp] theorem State.finish_ok (s : State) (ws : List Write) : s.finish (.ok ws) = (s.stage ws).complete .ok := rfl

/-- The end of a command that writes one register. -/
theorem State.finish_reg (s : State) (i : RegIdx) (v : Elem) :
    s.finish (.ok [.reg i v]) = { s with
      g := s.g.set i v, lerr := .ok, phase := .idle, staged := [], draws := s.draws + 1 } := rfl

/-- The end of a command that writes one LMEM byte. -/
theorem State.finish_mem (s : State) (a : Nat) (v : Elem) :
    s.finish (.ok [.mem a v]) = { s with
      lmem := Memory.write a v s.lmem, lerr := .ok, phase := .idle, staged := [], draws := s.draws + 1 } := rfl

/-- The writes of consecutive bytes, as a decode stages them. -/
def runWrites (base n : Nat) (value : Nat → Elem) : List Write :=
  (List.range n).map fun j => .mem (base + j) (value j)

theorem foldl_runWrites_g (base n : Nat) (value : Nat → Elem) (s : State) :
    ((runWrites base n value).foldl State.applyWrite s).g = s.g := by
  induction n with
  | zero => rfl
  | succ n ih => simpa [runWrites, List.range_succ, State.applyWrite] using ih

/-- A read after the commit of a run of bytes. -/
theorem read_foldl_runWrites (base n : Nat) (value : Nat → Elem) (s : State) (hn : base + n ≤ Config.lmemSize) (a : Nat) :
    Memory.read a ((runWrites base n value).foldl State.applyWrite s).lmem =
      if base ≤ a ∧ a < base + n then some (value (a - base)) else Memory.read a s.lmem := by
  induction n with
  | zero => rw [if_neg (by omega)]; rfl
  | succ n ih =>
    have step : ((runWrites base (n + 1) value).foldl State.applyWrite s).lmem =
        Memory.write (base + n) (value n) ((runWrites base n value).foldl State.applyWrite s).lmem := by
      simp [runWrites, List.range_succ, State.applyWrite]
    rw [step]
    by_cases h : a = base + n
    · subst h
      rw [Memory.read_write_self (by omega), if_pos (by omega)]
      simp
    · rw [Memory.read_write_of_ne h, ih (by omega)]
      by_cases h' : base ≤ a ∧ a < base + n
      · rw [if_pos h', if_pos (by omega)]
      · rw [if_neg h', if_neg (by omega)]

/-- Committing any staged writes keeps LMEM's canonical form. -/
theorem foldl_applyWrite_wf (ws : List Write) {s : State} (h : Memory.wf s.lmem) :
    Memory.wf (ws.foldl State.applyWrite s).lmem := by
  induction ws generalizing s with
  | nil => exact h
  | cons w ws ih =>
    refine ih ?_
    cases w with
    | reg i v => exact h
    | mem a v => exact Memory.write_wf a v h

theorem State.finish_wf {s : State} (h : Memory.wf s.lmem) (r : Except ResultCode (List Write)) :
    Memory.wf (s.finish r).lmem := by
  cases r with
  | error c =>
    simp only [State.finish_error]
    by_cases hc : c = .ok
    · subst hc
      exact foldl_applyWrite_wf s.staged h
    · rwa [State.complete_of_error s hc]
  | ok ws => exact foldl_applyWrite_wf (s := s.stage ws) ws h

/-! ### The meanings -/

theorem exec_gadd (rd ra rb : RegIdx) (s : State) :
    exec (.gadd rd ra rb) s = .next (s.finish (.ok [.reg rd (gadd s.g[ra] s.g[rb])])) := rfl

theorem exec_gmul (rd ra rb : RegIdx) (s : State) :
    exec (.gmul rd ra rb) s = .next (s.finish (.ok [.reg rd (gmul s.g[ra] s.g[rb])])) := rfl

theorem exec_ginv (rd ra : RegIdx) (s : State) :
    exec (.ginv rd ra) s = .next (s.finish (match ginv s.g[ra] with
      | some v => .ok [.reg rd v]
      | none => .error .zeroInverse)) := rfl

theorem exec_peval (rd rx : RegIdx) (deg : BitVec 8) (base : LmemAddr) (s : State) :
    exec (.peval rd rx deg base) s = .next (s.finish (if runsPast base (deg.toNat + 1) then .error .addrRange
      else .ok [.reg rd (horner (s.loadRun base (deg.toNat + 1)) s.g[rx])])) := rfl

theorem exec_dece (s : State) : exec .dece s = .next (s.finish (deceBody s)) := rfl

theorem exec_decbw (s : State) : exec .decbw s = .next (s.finish (decbwBody s)) := rfl

theorem exec_gldi (rd : RegIdx) (imm : Elem) (s : State) :
    exec (.gldi rd imm) s = .next (s.finish (.ok [.reg rd imm])) := rfl

theorem exec_gld (rd : RegIdx) (addr : LmemAddr) (s : State) :
    exec (.gld rd addr) s = .next (s.finish (.ok [.reg rd (s.loadByte addr.toNat)])) := rfl

theorem exec_gst (rs : RegIdx) (addr : LmemAddr) (s : State) :
    exec (.gst rs addr) s = .next (s.finish (.ok [.mem addr.toNat s.g[rs]])) := rfl

/-! ### Operand reads and the common checks -/

theorem State.loadByte_written {s : State} {a : Nat} {v : Elem} (h : Memory.read a s.lmem = some v) :
    s.loadByte a = v := by simp [State.loadByte, h]

theorem State.loadByte_unwritten {s : State} {a : Nat} (h : Memory.read a s.lmem = none) :
    s.loadByte a = Config.unwrittenByte s.draws a := by simp [State.loadByte, h]

@[simp] theorem State.loadRun_length (s : State) (base : LmemAddr) (n : Nat) : (s.loadRun base n).length = n := by
  simp [State.loadRun]

theorem State.loadRun_getElem (s : State) (base : LmemAddr) (n i : Nat) (h : i < (s.loadRun base n).length) :
    (s.loadRun base n)[i] = s.loadByte (base.toNat + i) := by
  simp [State.loadRun]

/-- A run of at least one byte ends beyond LMEM exactly when its last address does. -/
theorem runsPast_iff {base : LmemAddr} {n : Nat} (hn : 0 < n) : runsPast base n = true ↔ 1023 < base.toNat + (n - 1) := by
  simp [runsPast, Config.lmemSize]
  omega

theorem pairwiseDistinct_iff (l : List Elem) : pairwiseDistinct l = true ↔ l.Nodup := by
  induction l with
  | nil => simp [pairwiseDistinct]
  | cons x xs ih => simp [pairwiseDistinct, ih]

/-- What holds once the checks of a decode have passed (42_decoder.md R192): 1 ≤ K ≤ M ≤ 255, M distinct non-zero x-values, as
many y-values, every output point below 256, and every output byte inside LMEM. -/
theorem State.decodeCommon_ok {s : State} {d : DecodeInput} (h : s.decodeCommon = .ok d) :
    0 < d.k ∧ d.k ≤ d.x.length ∧ d.x.length ≤ 255 ∧ d.y.length = d.x.length ∧ (0 : Elem) ∉ d.x ∧ d.x.Nodup ∧
      d.f + d.k ≤ 256 ∧ d.obase.toNat + d.k ≤ Config.lmemSize ∧ d.k = s.operands.k.toNat ∧
      d.obase = s.operands.obase := by
  unfold State.decodeCommon at h
  simp only [Config.maxElem] at h
  split at h
  · cases h
  split at h
  · cases h
  split at h
  · cases h
  split at h
  · cases h
  split at h
  · cases h
  split at h
  · cases h
  rename_i hk hm hf hp hz hd
  cases h
  have hm255 : s.operands.m.toNat < 256 := s.operands.m.isLt
  have hob : ¬ s.operands.obase.toNat + s.operands.k.toNat - 1 > Config.lmemSize - 1 := by
    intro hx
    exact hp (by simp [runsPast, hx])
  simp only [Config.lmemSize] at hob
  refine ⟨Nat.pos_of_ne_zero hk, ?_, ?_, ?_, ?_, ?_, ?_, ?_, rfl, rfl⟩
  · simpa using hm
  · simpa using Nat.le_of_lt_succ hm255
  · simp
  · simpa using hz
  · exact (pairwiseDistinct_iff _).1 (by simpa using hd)
  · show s.operands.f.toNat + s.operands.k.toNat ≤ 256
    omega
  · show s.operands.obase.toNat + s.operands.k.toNat ≤ 1024
    omega

/-- The outputs of a decode are a run of writes from OB (42_decoder.md R193). -/
theorem DecodeInput.outputs_eq (d : DecodeInput) (p : List Elem) :
    d.outputs p = runWrites d.obase.toNat d.k fun j => horner p (BitVec.ofNat 8 (d.f + j)) := rfl

/-- The codes the common checks may raise (42_decoder.md R192). -/
theorem State.decodeCommon_error {s : State} {c : ResultCode} (h : s.decodeCommon = .error c) :
    c = .param ∨ c = .insufficient ∨ c = .addrRange := by
  unfold State.decodeCommon at h
  simp only at h
  repeat' split at h
  all_goals cases h
  all_goals simp

/-- How DECE's body ends: a failed check, an erasure polynomial written out, or a system without a solution. -/
theorem deceBody_cases (s : State) :
    (∃ c, c ≠ .ok ∧ s.decodeCommon = .error c ∧ deceBody s = .error c) ∨
    (∃ d p, s.decodeCommon = .ok d ∧ erasurePoly (d.x.take d.k) (d.y.take d.k) d.k = some p ∧
      deceBody s = .ok (d.outputs p)) ∨
    ∃ d, s.decodeCommon = .ok d ∧ erasurePoly (d.x.take d.k) (d.y.take d.k) d.k = none ∧
      deceBody s = .error .unsolvable := by
  unfold deceBody
  cases h : s.decodeCommon with
  | error c =>
    refine .inl ⟨c, ?_, rfl, rfl⟩
    rcases State.decodeCommon_error h with rfl | rfl | rfl <;> decide
  | ok d =>
    cases hp : erasurePoly (d.x.take d.k) (d.y.take d.k) d.k with
    | none => exact .inr (.inr ⟨d, rfl, hp, by simp [hp]⟩)
    | some p => exact .inr (.inl ⟨d, p, rfl, hp, by simp [hp]⟩)

/-- How DECBW's body ends: a failed check, a message polynomial written out, or none recovered. -/
theorem decbwBody_cases (s : State) :
    (∃ c, c ≠ .ok ∧ s.decodeCommon = .error c ∧ decbwBody s = .error c) ∨
    (∃ d p, s.decodeCommon = .ok d ∧ bwPoly d.x d.y d.k = some p ∧ decbwBody s = .ok (d.outputs p)) ∨
    ∃ d, s.decodeCommon = .ok d ∧ bwPoly d.x d.y d.k = none ∧ decbwBody s = .error .unsolvable := by
  unfold decbwBody
  cases h : s.decodeCommon with
  | error c =>
    refine .inl ⟨c, ?_, rfl, rfl⟩
    rcases State.decodeCommon_error h with rfl | rfl | rfl <;> decide
  | ok d =>
    cases hp : bwPoly d.x d.y d.k with
    | none => exact .inr (.inr ⟨d, rfl, hp, by simp [hp]⟩)
    | some p => exact .inr (.inl ⟨d, p, rfl, hp, by simp [hp]⟩)

/-- Every meaning is the end of some body: one answer, the state it leaves. -/
theorem exec_eq_finish (i : Instr) (s : State) : ∃ r, exec i s = .next (s.finish r) := by
  cases i with
  | gadd rd ra rb => exact ⟨_, exec_gadd ..⟩
  | gmul rd ra rb => exact ⟨_, exec_gmul ..⟩
  | ginv rd ra => exact ⟨_, exec_ginv ..⟩
  | peval rd rx deg base => exact ⟨_, exec_peval ..⟩
  | dece => exact ⟨_, exec_dece ..⟩
  | decbw => exact ⟨_, exec_decbw ..⟩
  | gldi rd imm => exact ⟨_, exec_gldi ..⟩
  | gld rd addr => exact ⟨_, exec_gld ..⟩
  | gst rs addr => exact ⟨_, exec_gst ..⟩

/-! ### The port -/

/-- A port write while BUSY = 1 that is not dropped silently either clears the error state, sets OVR, or does nothing. -/
theorem State.portWrite_busy {s : State} (hb : s.busy = true) (data : Word) (r : PortReg) :
    s.portWrite data r =
      match r with
      | .id => s
      | .ctrl => if data.getLsbD 0 then s.clearErrors else s
      | .status => s
      | .cmd => s.setOvr
      | .decX => s.setOvr
      | .decY => s.setOvr
      | .decO => s.setOvr
      | .decMk => s.setOvr
      | .reg _ => s.setOvr
      | .lmem _ => s.setOvr
      | .unassigned => s := by
  cases r <;> simp [State.portWrite, State.unlessBusy, hb]

/-- A protected port write while BUSY = 0 is performed. -/
theorem State.unlessBusy_idle {s : State} (hb : s.busy = false) (write : State → State) : s.unlessBusy write = write s := by
  simp [State.unlessBusy, hb]

/-- The four bytes of a window write, read back. -/
theorem read_writeWindow (w : BitVec 8) (data : Word) (s : State) (a : Nat) :
    Memory.read a (s.writeWindow w data).lmem =
      if 4 * w.toNat ≤ a ∧ a < 4 * w.toNat + 4 then some (wordByte data (a - 4 * w.toNat))
      else Memory.read a s.lmem := by
  have hw : w.toNat < 256 := w.isLt
  simp only [State.writeWindow, State.storeByte_lmem]
  by_cases h3 : a = 4 * w.toNat + 3
  · subst h3
    rw [Memory.read_write_self (show _ < 1024 by omega), if_pos (by omega)]
    simp
  rw [Memory.read_write_of_ne h3]
  by_cases h2 : a = 4 * w.toNat + 2
  · subst h2
    rw [Memory.read_write_self (show _ < 1024 by omega), if_pos (by omega)]
    simp
  rw [Memory.read_write_of_ne h2]
  by_cases h1 : a = 4 * w.toNat + 1
  · subst h1
    rw [Memory.read_write_self (show _ < 1024 by omega), if_pos (by omega)]
    simp
  rw [Memory.read_write_of_ne h1]
  by_cases h0 : a = 4 * w.toNat
  · subst h0
    rw [Memory.read_write_self (show _ < 1024 by omega), if_pos (by omega)]
    simp
  rw [Memory.read_write_of_ne h0, if_neg (by omega)]

/-- A window write keeps LMEM's canonical form. -/
theorem State.writeWindow_wf (w : BitVec 8) (data : Word) {s : State} (h : Memory.wf s.lmem) :
    Memory.wf (s.writeWindow w data).lmem := by
  simp only [State.writeWindow, State.storeByte_lmem]
  exact Memory.write_wf _ _ (Memory.write_wf _ _ (Memory.write_wf _ _ (Memory.write_wf _ _ h)))

/-! ### The step -/

theorem step_of_reset {s : State} {rest : List HostEvent} (h : s.host = .reset :: rest) :
    step s = .next (s.resetBy rest) := by
  simp [step, runEvent, h]

theorem step_of_idle {s : State} (hr : ∀ rest, s.host ≠ .reset :: rest) (h : s.phase = .idle) :
    step s = .next s.hostTurn := by
  unfold step runEvent
  split
  · rename_i rest e; exact absurd e (hr rest)
  · simp [h]

theorem step_of_init {s : State} {n : Nat} (hr : ∀ rest, s.host ≠ .reset :: rest) (h : s.phase = .init n) :
    step s = .next s.hostTurn.tick := by
  unfold step runEvent
  split
  · rename_i rest e; exact absurd e (hr rest)
  · simp [h]

theorem step_of_waiting {s : State} {f : Flight} (hr : ∀ rest, s.host ≠ .reset :: rest) (h : s.phase = .running f)
    (hw : f.wait ≠ 0) : step s = .next s.hostTurn.tick := by
  unfold step runEvent
  split
  · rename_i rest e; exact absurd e (hr rest)
  · simp [h, hw]

theorem step_of_completing {s : State} {f : Flight} (hr : ∀ rest, s.host ≠ .reset :: rest) (h : s.phase = .running f)
    (hw : f.wait = 0) : step s = runLatched f.cl s.noTransaction := by
  unfold step runEvent
  split
  · rename_i rest e; exact absurd e (hr rest)
  · simp [h, hw]

end Sys2Proof.Machine
end

