-- ==== Sys2Proof/Laws/PerInstr.lean ====
section
/-! SUPPORT. One fact per command, about its syntax and encoding: the word of a command matches the row of the opcode map that
carries its mnemonic (30_encoding.md R108). -/

namespace Sys2Proof.Laws.RowMatch

/-- The word of the command matches its own row of the opcode map. -/
def Statement (i : Instr) : Prop :=
  ∃ row ∈ opcodeMap, row.mnemonic = i.mnemonic ∧ row.selects (encode i) = true

/-- A field whose bits the mask leaves out adds nothing to the masked word. -/
theorem or_field_and (w : Word) (v : BitVec n) (lo : Nat) (mask : Word) (h : ∀ i < n, mask.getLsbD (lo + i) = false) :
    (w ||| field v lo) &&& mask = w &&& mask := by
  refine BitVec.eq_of_getLsbD_eq fun i hi => ?_
  simp only [field, BitVec.getLsbD_and, BitVec.getLsbD_or, BitVec.getLsbD_shiftLeft, BitVec.getLsbD_setWidth]
  by_cases hlo : i < lo
  · simp [hlo]
  · by_cases hin : i - lo < n
    · have := h (i - lo) hin
      rw [Nat.add_sub_cancel' (by omega)] at this
      simp [this]
    · simp [BitVec.getLsbD_of_ge v (i - lo) (by omega)]

theorem gadd (rd ra rb : RegIdx) : Statement (.gadd rd ra rb) := by
  refine ⟨⟨"GADD", 0x04000000, 0xFC003FFF⟩, by decide, rfl, ?_⟩
  simp only [OpcodeRow.selects, encode, regField]
  rw [or_field_and _ _ _ _ (by decide), or_field_and _ _ _ _ (by decide), or_field_and _ _ _ _ (by decide)]
  decide

theorem gmul (rd ra rb : RegIdx) : Statement (.gmul rd ra rb) := by
  refine ⟨⟨"GMUL", 0x08000000, 0xFC003FFF⟩, by decide, rfl, ?_⟩
  simp only [OpcodeRow.selects, encode, regField]
  rw [or_field_and _ _ _ _ (by decide), or_field_and _ _ _ _ (by decide), or_field_and _ _ _ _ (by decide)]
  decide

theorem ginv (rd ra : RegIdx) : Statement (.ginv rd ra) := by
  refine ⟨⟨"GINV", 0x0C000000, 0xFC03FFFF⟩, by decide, rfl, ?_⟩
  simp only [OpcodeRow.selects, encode, regField]
  rw [or_field_and _ _ _ _ (by decide), or_field_and _ _ _ _ (by decide)]
  decide

theorem peval (rd rx : RegIdx) (deg : BitVec 8) (base : LmemAddr) : Statement (.peval rd rx deg base) := by
  refine ⟨⟨"PEVAL", 0x10000000, 0xFC000000⟩, by decide, rfl, ?_⟩
  simp only [OpcodeRow.selects, encode, regField]
  rw [or_field_and _ _ _ _ (by decide), or_field_and _ _ _ _ (by decide), or_field_and _ _ _ _ (by decide), or_field_and _ _ _ _ (by decide)]
  decide

theorem dece : Statement .dece := ⟨⟨"DECE", 0x14000000, 0xFFFFFFFF⟩, by decide, rfl, by decide⟩

theorem decbw : Statement .decbw := ⟨⟨"DECBW", 0x18000000, 0xFFFFFFFF⟩, by decide, rfl, by decide⟩

theorem gldi (rd : RegIdx) (imm : Elem) : Statement (.gldi rd imm) := by
  refine ⟨⟨"GLDI", 0x40000000, 0xFC3FFF00⟩, by decide, rfl, ?_⟩
  simp only [OpcodeRow.selects, encode, regField]
  rw [or_field_and _ _ _ _ (by decide), or_field_and _ _ _ _ (by decide)]
  decide

theorem gld (rd : RegIdx) (addr : LmemAddr) : Statement (.gld rd addr) := by
  refine ⟨⟨"GLD", 0x44000000, 0xFC3FFC00⟩, by decide, rfl, ?_⟩
  simp only [OpcodeRow.selects, encode, regField]
  rw [or_field_and _ _ _ _ (by decide), or_field_and _ _ _ _ (by decide)]
  decide

theorem gst (rs : RegIdx) (addr : LmemAddr) : Statement (.gst rs addr) := by
  refine ⟨⟨"GST", 0x48000000, 0xFC3FFC00⟩, by decide, rfl, ?_⟩
  simp only [OpcodeRow.selects, encode, regField]
  rw [or_field_and _ _ _ _ (by decide), or_field_and _ _ _ _ (by decide)]
  decide

end Sys2Proof.Laws.RowMatch
end

