-- ==== Sys2Proof/Laws/Step.lean ====
section
/-! SUPPORT. What one step can do, said once: how a command ends, what the host's turn changes inside and outside a BUSY
window, the cases of a step, and runs of steps. -/

namespace Sys2Proof.Machine

/-! ### The end of a command -/

/-- Every field the completion step sets whatever the code (60_exceptions.md R263). -/
theorem State.complete_fields (s : State) (c : ResultCode) :
    (s.complete c).lerr = c ∧ (s.complete c).ferr = (if c ≠ .ok ∧ s.ferr = .ok then c else s.ferr) ∧
      (s.complete c).ovr = s.ovr ∧ (s.complete c).dec = s.dec ∧ (s.complete c).phase = .idle ∧
      (s.complete c).staged = [] ∧ (s.complete c).host = s.host := by
  by_cases hc : c = .ok
  · subst hc
    simp [State.complete_of_ok]
  · simp [State.complete_of_error s hc, hc]

/-- The same for the end of a command, whatever its body answers. -/
theorem State.finish_fields (s : State) (r : Except ResultCode (List Write)) :
    (s.finish r).ferr = (if (s.finish r).lerr ≠ .ok ∧ s.ferr = .ok then (s.finish r).lerr else s.ferr) ∧
      (s.finish r).ovr = s.ovr ∧ (s.finish r).dec = s.dec ∧ (s.finish r).phase = .idle ∧ (s.finish r).staged = [] ∧
      (s.finish r).host = s.host := by
  cases r with
  | error c =>
    obtain ⟨hl, hf, h⟩ := s.complete_fields c
    exact ⟨by simp only [State.finish_error, hl, hf], h⟩
  | ok ws =>
    obtain ⟨hl, hf, h⟩ := (s.stage ws).complete_fields .ok
    exact ⟨by simp only [State.finish_ok, hl, hf]; simp, h⟩

/-- The latched word's completion is the end of some body, ILLEGAL's included. -/
theorem runLatched_eq_finish (w : Word) (s : State) : ∃ r, runLatched w s = .next (s.finish r) := by
  unfold runLatched
  split
  · exact exec_eq_finish _ s
  · exact ⟨.error .illegal, rfl⟩

/-! ### The host's turn -/

/-- The passing of a window's step changes `phase` only. -/
theorem State.tick_eq (s : State) : s.tick = { s with phase := s.tick.phase } := by
  unfold State.tick
  split <;> simp

/-- The host's turn inside a BUSY window: nothing changes but the error state. Either LERR and FERR are kept, and OVR is kept or
set by a protected write, or the host cleared all three (10_state.md R44, R45; 70_reset_and_hazards.md R306 to R308). -/
theorem State.hostTurn_busy {s : State} (hb : s.busy = true) (hr : ∀ rest, s.host ≠ .reset :: rest) :
    s.hostTurn.g = s.g ∧ s.hostTurn.lmem = s.lmem ∧ s.hostTurn.dec = s.dec ∧ s.hostTurn.phase = s.phase ∧
      s.hostTurn.staged = s.staged ∧
      ((s.hostTurn.lerr = s.lerr ∧ s.hostTurn.ferr = s.ferr ∧
          (s.hostTurn.ovr = s.ovr ∨
            (s.hostTurn.ovr = true ∧ s.writesProtected))) ∨
        (s.writesClear ∧ s.hostTurn.lerr = .ok ∧ s.hostTurn.ferr = .ok ∧ s.hostTurn.ovr = false)) := by
  unfold State.hostTurn
  split
  · simp
  · simp
  · rename_i off w rest hh
    simp only [State.performWrite]
    rw [State.portWrite_busy (by simpa [State.busy] using hb)]
    cases hp : portReg off with
    | ctrl =>
      by_cases hw : w.getLsbD 0 = true
      · simp only [hw, if_true]
        exact ⟨rfl, rfl, rfl, rfl, rfl, .inr ⟨⟨off, w, rest, hh, hp, hw⟩, rfl, rfl, rfl⟩⟩
      · rw [if_neg hw]
        exact ⟨rfl, rfl, rfl, rfl, rfl, .inl ⟨rfl, rfl, .inl rfl⟩⟩
    | id => exact ⟨rfl, rfl, rfl, rfl, rfl, .inl ⟨rfl, rfl, .inl rfl⟩⟩
    | status => exact ⟨rfl, rfl, rfl, rfl, rfl, .inl ⟨rfl, rfl, .inl rfl⟩⟩
    | unassigned => exact ⟨rfl, rfl, rfl, rfl, rfl, .inl ⟨rfl, rfl, .inl rfl⟩⟩
    | _ => exact ⟨rfl, rfl, rfl, rfl, rfl, .inl ⟨rfl, rfl, .inr ⟨rfl, off, w, rest, hh, by simp [hp, PortReg.isProtected]⟩⟩⟩
  · simp
  · exact absurd ‹_› (hr _)

/-- The host's turn while BUSY = 0: its write is performed, and anything else leaves the machine's own state alone. -/
theorem State.hostTurn_idle {s : State} (hp : s.phase = .idle) (hr : ∀ rest, s.host ≠ .reset :: rest) :
    (∃ off w rest, s.host = .write off w :: rest ∧
      s.hostTurn = { s.portWrite w (portReg off) with host := rest, pready := true }) ∨
    (s.hostTurn.g = s.g ∧ s.hostTurn.lmem = s.lmem ∧ s.hostTurn.dec = s.dec ∧ s.hostTurn.phase = s.phase ∧
      s.hostTurn.staged = s.staged ∧ s.hostTurn.lerr = s.lerr ∧ s.hostTurn.ferr = s.ferr ∧ s.hostTurn.ovr = s.ovr) := by
  unfold State.hostTurn
  split
  · simp
  · simp
  · rename_i off w rest hh
    refine .inl ⟨off, w, rest, hh, ?_⟩
    simp only [State.performWrite]
    cases portReg off <;>
      simp [State.portWrite, State.unlessBusy, State.busy, hp, State.accept, State.writeReg, State.writeWindow,
        State.storeByte]
    split <;> simp [State.clearErrors, hp]
  · simp
  · exact absurd ‹_› (hr _)

/-! ### One step -/

/-- Everything a step can be: a reset, the host's turn while BUSY = 0, the host's turn inside a window, or a completion. -/
theorem step_cases (s : State) :
    (∃ rest, s.host = .reset :: rest ∧ step s = .next (s.resetBy rest)) ∨
    ((∀ rest, s.host ≠ .reset :: rest) ∧
      ((s.phase = .idle ∧ step s = .next s.hostTurn) ∨
       (s.hostInBusyWindow ∧ s.busy = true ∧ step s = .next s.hostTurn.tick) ∨
       (∃ f r, s.phase = .running f ∧ f.wait = 0 ∧ runLatched f.cl s.noTransaction = .next (s.noTransaction.finish r) ∧
          step s = .next (s.noTransaction.finish r)))) := by
  by_cases hr : ∃ rest, s.host = .reset :: rest
  · obtain ⟨rest, h⟩ := hr
    exact .inl ⟨rest, h, step_of_reset h⟩
  · have hr : ∀ rest, s.host ≠ .reset :: rest := by simpa using hr
    refine .inr ⟨hr, ?_⟩
    cases hp : s.phase with
    | idle => exact .inl ⟨rfl, step_of_idle hr hp⟩
    | init n =>
      exact .inr (.inl ⟨by simp [State.hostInBusyWindow, State.inBusyWindow, hp], by simp [State.busy, hp], step_of_init hr hp⟩)
    | running f =>
      by_cases hw : f.wait = 0
      · obtain ⟨r, h⟩ := runLatched_eq_finish f.cl s.noTransaction
        exact .inr (.inr ⟨f, r, rfl, hw, h, (step_of_completing hr hp hw).trans h⟩)
      · exact .inr (.inl ⟨by simp [State.hostInBusyWindow, State.inBusyWindow, hp, hw], by simp [State.busy, hp], step_of_waiting hr hp hw⟩)

/-! ### Runs of steps -/

/-- A run's first step. -/
theorem core_run_succ {s t : State} (h : step s = .next t) (k : Nat) : core.run (k + 1) s = core.run k t := by
  have h' : core.step s = .next t := h
  simp only [Host.Core.run, h']

/-- A run cut in two. -/
theorem core_run_add {s t : State} {k : Nat} (h : core.run k s = .next t) (l : Nat) :
    core.run (k + l) s = core.run l t := by
  induction k generalizing s with
  | zero =>
    cases h
    simp
  | succ k ih =>
    obtain ⟨u, hu⟩ : ∃ u, step s = .next u := by
      rcases step_cases s with ⟨_, _, h⟩ | ⟨_, ⟨_, h⟩ | ⟨_, _, h⟩ | ⟨_, _, _, _, _, h⟩⟩ <;> exact ⟨_, h⟩
    rw [core_run_succ hu] at h
    rw [show k + 1 + l = (k + l) + 1 by omega, core_run_succ hu]
    exact ih h

end Sys2Proof.Machine
end

