-- ==== Sys2Proof/Tests/Slice0.lean ====
section
/-! SUPPORT. Tests of the model and witnesses for the statements' hypotheses. Expected values come from the vectors of
95_test_vectors.md (named in each comment) or from the rule cited. -/

namespace Sys2Proof.Machine.Tests

/-! ### Small states -/

/-- The state after the initialisation window: every register 0, nothing in LMEM, BUSY = 0. -/
def idle : State := { State.reset with phase := .idle }

/-- Element registers set to values, in order from the list. -/
def withRegs (rs : List (RegIdx × Elem)) (s : State) : State := rs.foldl (fun s r => s.writeReg r.1 r.2) s

/-- LMEM bytes at rising addresses. -/
def withBytes (a : Nat) (bs : List Elem) (s : State) : State :=
  { s with lmem := bs.zipIdx.foldl (fun m b => Memory.write (a + b.2) b.1 m) s.lmem }

/-- The decoder's parameter registers, with XB = 0, YB = 0x100, OB = 0x200 (the default of the decode vectors). -/
def withDec (m k f : BitVec 8) (s : State) : State :=
  { s with dec := { xbase := 0x000, ybase := 0x100, obase := 0x200, m := m, k := k, f := f } }

/-- The outside world's next events. -/
def withHost (es : List HostEvent) (s : State) : State := { s with host := es }

/-- A command in flight. -/
def withFlight (w : Word) (wait : Nat) (s : State) : State :=
  { s with phase := .running { cl := w, params := s.dec, wait := wait } }

/-- The initialisation window, with `n` steps left after the next one. -/
def withWindow (n : Nat) (s : State) : State := { s with phase := .init n }

/-- The state a step answers, if it answers one. -/
def after (o : Host.Outcome State Fault Refusal) : Option State :=
  match o with
  | .next s => some s
  | .fault _ => none
  | .refused _ => none

/-- The state after the command word `w`, run as the next instruction. -/
def run (w : Nat) (s : State) : Option State := after (step (s.withFetchWord 32 w))

/-- A register, LERR and FERR after a command. -/
def regAfter (w : Nat) (i : RegIdx) (s : State) : Option (Elem × ResultCode × ResultCode) :=
  (run w s).map fun t => (t.g[i], t.lerr, t.ferr)

/-- Some LMEM bytes and LERR after a command. -/
def bytesAfter (w a n : Nat) (s : State) : Option (List (Option Elem) × ResultCode) :=
  (run w s).map fun t => ((List.range n).map fun i => Memory.read (a + i) t.lmem, t.lerr)

/-! ### Well-formedness: each check refuses an operand out of its range (30_encoding.md R114) -/

theorem test_wellFormed_register : (Asm.gadd 16 0 0).assemble = none ∧ (Asm.gmul 0 16 0).assemble = none ∧
    (Asm.gmul 0 0 16).assemble = none ∧ (Asm.ginv 0 16).assemble = none ∧ (Asm.gclr 16).assemble = none ∧
    (Asm.gsub 15 15 16).assemble = none ∧ (Asm.gsqr 15 16).assemble = none := by decide

theorem test_wellFormed_byte : (Asm.gldi 0 256).assemble = none ∧ (Asm.peval 0 0 256 0).assemble = none := by decide

theorem test_wellFormed_address : (Asm.gld 0 1024).assemble = none ∧ (Asm.gst 0 1024).assemble = none ∧
    (Asm.peval 0 0 0 1024).assemble = none := by decide

theorem test_wellFormed_bounds : (Asm.peval 15 15 255 1023).assemble = some (.peval 15 15 255 1023) ∧
    (Asm.gldi 15 255).assemble = some (.gldi 15 255) := by decide

theorem test_pseudo : (Asm.gsub 8 1 1).assemble = some (.gadd 8 1 1) ∧ (Asm.gclr 5).assemble = some (.gadd 5 5 5) ∧
    (Asm.gsqr 3 3).assemble = some (.gmul 3 3 3) := by decide

theorem test_text : Asm.text (.peval 1 2 2 16) = "PEVAL G1, G2, 2, [16]" ∧
    Asm.text (.gst 7 16) = "GST G7, [16]" := ⟨rfl, rfl⟩

/-! ### Decoding: words written out from the formats of 30_encoding.md R102 to R108 -/

theorem test_decode_gadd : decode 0b000001_0011_0001_0010_00000000000000 = .instr (.gadd 3 1 2) := by decide
theorem test_decode_gmul : decode 0b000010_0011_1111_0000_00000000000000 = .instr (.gmul 3 15 0) := by decide
theorem test_decode_ginv : decode 0b000011_1001_1010_000000000000000000 = .instr (.ginv 9 10) := by decide
theorem test_decode_peval : decode 0b000100_0001_0010_11111110_1000000001 = .instr (.peval 1 2 0xFE 0x201) := by decide
theorem test_decode_dece : decode 0b000101_00000000000000000000000000 = .instr .dece := by decide
theorem test_decode_decbw : decode 0b000110_00000000000000000000000000 = .instr .decbw := by decide
theorem test_decode_gldi : decode 0b010000_1111_00000000000000_10101011 = .instr (.gldi 15 0xAB) := by decide
theorem test_decode_gld : decode 0b010001_0010_000000000000_1111111111 = .instr (.gld 2 0x3FF) := by decide
theorem test_decode_gst : decode 0b010010_0111_000000000000_0000010000 = .instr (.gst 7 0x010) := by decide

/-- ILL-1 to ILL-6, then ILL-7 to ILL-18. -/
theorem test_decode_illegal :
    ([0x00000000, 0x1C000000, 0x3C000000, 0x4C000000, 0xFC000000, 0xFFFFFFFF] : List Word).map decode =
      List.replicate 6 (.illegal .reservedOpcode) ∧
    ([0x04048001, 0x0404A000, 0x08049000, 0x0C060000, 0x0C040001, 0x14000001, 0x16000000, 0x18000400, 0x40000100,
      0x40200000, 0x44000400, 0x48200000] : List Word).map decode = List.replicate 12 (.illegal .reservedBits) := by decide

/-- 30_encoding.md R108: the match word of each row is the encoding of its command with operands 0. -/
theorem test_encode_rows :
    opcodeMap.map (fun r => (decode r.matchWord, r.mnemonic)) =
      ([.gadd 0 0 0, .gmul 0 0 0, .ginv 0 0, .peval 0 0 0 0, .dece, .decbw, .gldi 0 0, .gld 0 0, .gst 0 0] : List Instr).map
        (fun i => (.instr i, i.mnemonic)) := by decide

theorem test_encode_words : encode (.gadd 15 14 13) = 0x07FB4000 ∧ encode (.ginv 9 9) = 0x0E640000 ∧
    encode (.peval 2 2 2 0x010) = 0x10880810 := by decide

theorem test_decodeTableWord : decodeTableWord 32 0x448003FF = some (.gld 2 0x3FF) ∧
    decodeTableWord 32 0x04048001 = none := by decide

/-! ### The field -/

/-- 10_state.md R34: xtime of an element whose top bit is set reduces by 0x11B (0x80 becomes 0x1B). -/
theorem test_xtime : xtime 0x80 = 0x1B ∧ xtime 0x57 = 0xAE := by decide

/-- GMUL-1, GMUL-4, GMUL-13. -/
theorem test_clmul : clmul 0x57 0x83 = 0xC1 ∧ clmul 0x80 0x80 = 0x9A ∧ clmul 0x1D 0x1D = 0x4A := by decide

/-! ### One step of each command -/

/-- GADD-5. -/
theorem test_gadd : regAfter 0x07FB4000 15 (withRegs [(14, 0xA5), (13, 0x5A)] idle) = some (0xFF, .ok, .ok) := by decide

/-- GADD-7: the destination is a source. -/
theorem test_gadd_same : regAfter 0x04448000 1 (withRegs [(1, 0x12), (2, 0x34)] idle) = some (0x26, .ok, .ok) := by decide

/-- GMUL-5: the sum of the logarithms wraps. -/
theorem test_gmul : regAfter 0x08048000 0 (withRegs [(1, 0xFF), (2, 0xFF)] idle) = some (0x13, .ok, .ok) := by decide

/-- GMUL-8: the short-circuit on zero. -/
theorem test_gmul_zero : regAfter 0x08048000 0 (withRegs [(0, 0x77), (2, 0x55)] idle) = some (0x00, .ok, .ok) := by decide

/-- GINV-4. -/
theorem test_ginv : regAfter 0x0D140000 4 (withRegs [(5, 0x53), (4, 0x77)] idle) = some (0xCA, .ok, .ok) := by decide

/-- GINV-9. -/
theorem test_ginv_zero :
    regAfter 0x0D140000 4 (withRegs [(4, 0x77)] idle) = some (0x77, .zeroInverse, .zeroInverse) := by decide

/-- PEVAL-17: RD = RX. -/
theorem test_peval :
    regAfter 0x10880810 2 (withRegs [(2, 0x02)] (withBytes 0x010 [0x12, 0x34, 0x56] idle)) = some (0x39, .ok, .ok) := by decide

/-- PEVAL-15: BASE + DEG = 1024. -/
theorem test_peval_range :
    regAfter 0x104807FF 1 (withRegs [(1, 0xEE), (2, 0x05)] (withBytes 0x3FF [0x42] idle)) =
      some (0xEE, .addrRange, .addrRange) := by decide

/-- The points and the pre-filled output area of the decode vectors. -/
def decodeState (x y : List Elem) (m k f : BitVec 8) : State :=
  withDec m k f (withBytes 0x200 [0xEE, 0xEE, 0xEE] (withBytes 0x100 y (withBytes 0x000 x idle)))

/-- DECE-7: the outputs run to the element 255. -/
theorem test_dece : bytesAfter 0x14000000 0x200 3 (decodeState [1, 2, 3] [0x50, 0xEE, 0x1B] 3 3 253) =
    some ([some 0x57, some 0xE9, some 0x1C], .ok) := by decide

/-- DECE-14: a repeated x-value. -/
theorem test_dece_param : bytesAfter 0x14000000 0x200 3 (decodeState [1, 2, 1] [0x50, 0xEE, 0x1B] 3 3 0) =
    some ([some 0xEE, some 0xEE, some 0xEE], .param) := by decide

/-- DECBW-5: one error, M - K odd. -/
theorem test_decbw : bytesAfter 0x18000000 0x200 3
    (decodeState [1, 2, 3, 4, 5, 6] [0x50, 0xEE, 0x1B, 0x00, 0x18, 0xA6] 6 3 0) =
      some ([some 0xA5, some 0x50, some 0xEE], .ok) := by decide

/-- DECBW-8: an error and e = 0. -/
theorem test_decbw_unsolvable : bytesAfter 0x18000000 0x200 3 (decodeState [1, 2, 3, 4] [0x50, 0xEE, 0x1B, 0x00] 4 3 0) =
    some ([some 0xEE, some 0xEE, some 0xEE], .unsolvable) := by decide

/-- MOV-1. -/
theorem test_gldi : regAfter 0x43C000AB 15 idle = some (0xAB, .ok, .ok) := by decide

/-- MOV-3. -/
theorem test_gld : regAfter 0x448003FF 2 (withBytes 0x3FF [0x5A] idle) = some (0x5A, .ok, .ok) := by decide

/-- MOV-5: exactly one byte. -/
theorem test_gst : bytesAfter 0x49C00010 0x010 4 (withRegs [(7, 0x3C)] (withBytes 0x010 [0xEE, 0xEE, 0xEE, 0xEE] idle)) =
    some ([some 0x3C, some 0xEE, some 0xEE, some 0xEE], .ok) := by decide

/-- ILL-7: a reserved bit set. -/
theorem test_illegal :
    regAfter 0x04048001 0 (withRegs [(1, 0x57), (2, 0x83)] idle) = some (0x00, .illegal, .illegal) := by decide

/-! ### The port (program P5, program P4, 95_test_vectors.md) -/

/-- What the host reads at an offset, after a write of another. -/
def readAfterWrite (off data roff : Nat) (s : State) : Option Word :=
  ((after (step (withHost [.write (BitVec.ofNat 12 off) (BitVec.ofNat 32 data)] s))).bind fun t =>
    after (step (withHost [.read (BitVec.ofNat 12 roff)] t))).map State.prdata

/-- P5: DEC_X keeps 10 bits, DEC_MK 24, Gi 8; STATUS ignores writes; bits [1:0] of an offset are ignored. -/
theorem test_port_fields : readAfterWrite 0x010 0xFFFFFFFF 0x010 idle = some 0x3FF ∧
    readAfterWrite 0x01C 0xFFFFFFFF 0x01C idle = some 0xFFFFFF ∧ readAfterWrite 0x054 0x12345678 0x054 idle = some 0x78 ∧
    readAfterWrite 0x008 0xFFFFFFFF 0x00B idle = some 0 ∧ readAfterWrite 0x020 0xDEADBEEF 0x020 idle = some 0 ∧
    readAfterWrite 0x000 0 0x003 idle = some 0x47463801 := by decide

/-- P5: the LMEM window is little-endian. -/
theorem test_port_window : readAfterWrite 0x400 0x44332211 0x400 idle = some 0x44332211 ∧
    (after (step (withHost [.write 0x400 0x44332211] idle))).map State.lmem =
      some [(0, 0x11), (1, 0x22), (2, 0x33), (3, 0x44)] := by decide

/-- P4: STATUS while the accepted GLDI is in flight, LERR = ILLEGAL and FERR = INSUFFICIENT before it. -/
theorem test_port_status : (withFlight 0x40400077 1 ({ idle with lerr := .illegal, ferr := .insufficient } : State)).statusWord =
    0x00050101 := by decide

/-- P4: a CMD write and a G write inside the window are dropped and set OVR; then the GLDI completes. -/
theorem test_busy_window :
    (after (core.run 3 (withHost [.write 0x00C 0x40800066, .write 0x04C 0xAA] (withFlight 0x40400077 2 idle)))).map
      (fun t => (t.g[(1 : RegIdx)], t.g[(2 : RegIdx)], t.g[(3 : RegIdx)], t.ovr, t.busy)) =
      some (0x77, 0, 0, true, false) := by decide

/-- HOST-4: CTRL is written while BUSY = 1, then the command completes with PARAM. -/
theorem test_ctrl_while_busy :
    (after (core.run 2 (withHost [.write 0x004 1] (withFlight 0x14000000 1
      ({ idle with lerr := .illegal, ferr := .illegal, ovr := true } : State))))).map
      (fun t => (t.lerr, t.ferr, t.ovr)) = some (.param, .param, false) := by decide

/-- HOST-5: reset while a DECE is in flight. -/
theorem test_reset_in_flight :
    (after (step (withHost [.reset] (withFlight 0x14000000 0 (decodeState [1, 2, 3] [0x50, 0xEE, 0x1B] 3 3 0))))).map
      (fun t => (t.g, t.lmem, t.dec, t.lerr, t.ovr)) =
      some (Vector.replicate 16 0, [], Params.zero, .ok, false) := by decide

/-- 30_encoding.md R116: a last group of one byte is padded with 0x00. -/
theorem test_writeBytes : writeBytes 0x000 [0x65, 0xA1, 0x0E, 0x00, 0x77] =
    [.write 0x400 0x000EA165, .write 0x404 0x00000077] := by decide

/-! ### Witnesses: for every statement with hypotheses, a state and operands that meet them, clause by clause -/

theorem noReset_of_nil : ∀ rest, ([] : List HostEvent) ≠ .reset :: rest := by simp

theorem test_witness_DecodedWordIsTheEncoding : decode 0x04048000 = .instr (.gadd 0 1 2) := by decide

theorem test_witness_DecodeFollowsTheOpcodeMap :
    ⟨"GST", 0x48000000, 0xFC3FFC00⟩ ∈ opcodeMap ∧ OpcodeRow.selects ⟨"GST", 0x48000000, 0xFC3FFC00⟩ 0x49C00010 = true := by decide

/-- The premises on the word, one word for each kind of illegal word at the bounds of the reserved opcodes and bits. -/
theorem test_witness_IllegalWords_words :
    ([0x00000000, 0x1C000000, 0x3C000000, 0x4C000000, 0xFC000000] : List Word).map (fun w => (opcField w).toNat) =
      [0, 0x07, 0x0F, 0x13, 0x3F] ∧
    ([0x04000001, 0x08002000].all fun w => (opcField w = 0x01 ∨ opcField w = 0x02) ∧ w.extractLsb' 0 14 ≠ 0) = true ∧
    ([0x0C000001, 0x0C020000].all fun w => opcField w = 0x03 ∧ w.extractLsb' 0 18 ≠ 0) = true ∧
    ([0x14000001, 0x1A000000].all fun w => (opcField w = 0x05 ∨ opcField w = 0x06) ∧ w.extractLsb' 0 26 ≠ 0) = true ∧
    ([0x40000100, 0x40200000].all fun w => opcField w = 0x10 ∧ w.extractLsb' 8 14 ≠ 0) = true ∧
    ([0x44000400, 0x48200000].all fun w => (opcField w = 0x11 ∨ opcField w = 0x12) ∧ w.extractLsb' 10 12 ≠ 0) = true := by
  decide

theorem test_witness_IllegalWords_state :
    (withFlight 0x04000001 0 idle).phase = .running { cl := 0x04000001, params := Params.zero, wait := 0 } ∧
    ∀ rest, (withFlight 0x04000001 0 idle).host ≠ .reset :: rest := ⟨rfl, noReset_of_nil⟩

theorem test_witness_AssemblerRefusesAndKeepsOperands :
    (Asm.gadd 15 0 15).assemble = some (.gadd 15 0 15) ∧ (Asm.gmul 0 15 15).assemble = some (.gmul 0 15 15) ∧
    (Asm.ginv 15 0).assemble = some (.ginv 15 0) ∧ (Asm.peval 15 0 255 1023).assemble = some (.peval 15 0 255 1023) ∧
    (Asm.gldi 15 255).assemble = some (.gldi 15 255) ∧ (Asm.gld 15 1023).assemble = some (.gld 15 1023) ∧
    (Asm.gst 15 1023).assemble = some (.gst 15 1023) := by decide

theorem test_witness_GaddAsSpecified :
    (0x07FB4000 : Word) &&& 0xFC003FFF = 0x04000000 ∧ opcField 0x04002000 = 0x01 ∧
    (0x04002000 : Word).extractLsb' 0 14 ≠ 0 := by decide

theorem test_witness_GmulAsSpecified :
    (0x08CCC000 : Word) &&& 0xFC003FFF = 0x08000000 ∧ opcField 0x08002000 = 0x02 ∧
    (0x08002000 : Word).extractLsb' 0 14 ≠ 0 := by decide

theorem test_witness_GinvAsSpecified :
    (0x0E640000 : Word) &&& 0xFC03FFFF = 0x0C000000 ∧ opcField 0x0C020000 = 0x03 ∧
    (0x0C020000 : Word).extractLsb' 0 18 ≠ 0 ∧
    (withRegs [(5, 0x01)] idle).g[(5 : RegIdx)] ≠ 0 ∧ idle.g[(5 : RegIdx)] = 0 := by decide

/-- The two sides of BASE + DEG = 1023 (PEVAL-10, PEVAL-14). -/
theorem test_witness_PevalAsSpecified :
    (0x104BFF01 : Word) &&& 0xFC000000 = 0x10000000 ∧
    (0x300 : LmemAddr).toNat + (255 : BitVec 8).toNat ≤ 1023 ∧
    1023 < (0x301 : LmemAddr).toNat + (255 : BitVec 8).toNat := by decide

theorem test_witness_GldiAsSpecified :
    (0x43C000AB : Word) &&& 0xFC3FFF00 = 0x40000000 ∧ opcField 0x40200000 = 0x10 ∧
    (0x40200000 : Word).extractLsb' 8 14 ≠ 0 := by decide

/-- GLD's byte may be written, and may be unwritten. -/
theorem test_witness_GldAsSpecified :
    (0x448003FF : Word) &&& 0xFC3FFC00 = 0x44000000 ∧ opcField 0x44200000 = 0x11 ∧
    (0x44200000 : Word).extractLsb' 10 12 ≠ 0 ∧
    Memory.read (0x3FF : LmemAddr).toNat (withBytes 0x3FF [0x5A] idle).lmem = some 0x5A ∧
    Memory.read (0x3FF : LmemAddr).toNat idle.lmem = none := by decide

theorem test_witness_GstAsSpecified :
    (0x480003FF : Word) &&& 0xFC3FFC00 = 0x48000000 ∧ opcField 0x48000400 = 0x12 ∧
    (0x48000400 : Word).extractLsb' 10 12 ≠ 0 := by decide

/-- The clauses of the checks, each at its bound: K = 0; M = K - 1; F + K - 1 = 256 (DECE-8); a list that ends at 1024 for each
of the three lists; a zero and a repetition in X; and no failure with F + K - 1 = 255 (DECE-7). -/
theorem test_witness_DecodeChecksInOrder :
    (decodeState [] [] 3 0 0).decodeCommon = .error .param ∧
    (decodeState [1, 2] [0x50, 0xEE] 2 3 0).decodeCommon = .error .insufficient ∧
    (decodeState [1, 2, 3] [0x50, 0xEE, 0x1B] 3 3 254).decodeCommon = .error .param ∧
    ({ decodeState [] [] 3 3 0 with dec := ⟨0x3FE, 0x100, 0x200, 3, 3, 0⟩ } : State).decodeCommon = .error .addrRange ∧
    ({ decodeState [] [] 3 3 0 with dec := ⟨0x000, 0x3FE, 0x200, 3, 3, 0⟩ } : State).decodeCommon = .error .addrRange ∧
    ({ decodeState [] [] 3 3 0 with dec := ⟨0x000, 0x100, 0x3FE, 3, 3, 0⟩ } : State).decodeCommon = .error .addrRange ∧
    (decodeState [1, 0, 3] [0x50, 0xEE, 0x1B] 3 3 0).decodeCommon = .error .param ∧
    (decodeState [1, 2, 1] [0x50, 0xEE, 0x1B] 3 3 0).decodeCommon = .error .param ∧
    (decodeState [1, 2, 3] [0x50, 0xEE, 0x1B] 3 3 253).decodeCommon =
      .ok { x := [1, 2, 3], y := [0x50, 0xEE, 0x1B], k := 3, f := 253, obase := 0x200 } := by decide

/-- The input of DECE-4. -/
theorem test_witness_DeceWritesTheInterpolation :
    opcField 0x16000000 = 0x05 ∧ (0x16000000 : Word).extractLsb' 0 26 ≠ 0 ∧
    (decodeState [1, 2] [0x50, 0xEE] 2 3 0).decodeCommon = .error .insufficient ∧
    (decodeState [1, 2, 3, 4] [0x50, 0xEE, 0x1B, 0x00] 4 3 0).decodeCommon =
      .ok { x := [1, 2, 3, 4], y := [0x50, 0xEE, 0x1B, 0x00], k := 3, f := 0, obase := 0x200 } := by decide

/-- DECBW-2: the polynomial [A5, 37, C2] differs from the y-values at exactly e = 2 of the 7 points. -/
theorem test_witness_DecbwCorrects_within :
    (decodeState [1, 2, 3, 4, 5, 6, 7] [0xAF, 0xEE, 0x1B, 0xED, 0x19, 0xA6, 0x53] 7 3 0).decodeCommon =
      .ok { x := [1, 2, 3, 4, 5, 6, 7], y := [0xAF, 0xEE, 0x1B, 0xED, 0x19, 0xA6, 0x53], k := 3, f := 0, obase := 0x200 } ∧
    disagreements [0xA5, 0x37, 0xC2] [1, 2, 3, 4, 5, 6, 7] [0xAF, 0xEE, 0x1B, 0xED, 0x19, 0xA6, 0x53] = (7 - 3) / 2 := by decide

/-- Two points with different y-values, K = 1 and e = 0: no constant fits. -/
theorem test_witness_DecbwCorrects_beyond :
    (decodeState [1, 2] [0x00, 0x01] 2 1 0).decodeCommon =
      .ok { x := [1, 2], y := [0x00, 0x01], k := 1, f := 0, obase := 0x200 } ∧
    ¬ ∃ p : List Elem, p.length = 1 ∧ disagreements p [1, 2] [0x00, 0x01] ≤ (2 - 1) / 2 := by
  refine ⟨by decide, ?_⟩
  rintro ⟨p, hp, h⟩
  obtain ⟨c, rfl⟩ := List.length_eq_one_iff.1 hp
  have hc : ∀ x, horner [c] x = c := fun x => by simp [horner, gmul, gadd]
  simp only [disagreements, hc] at h
  split at h
  · rename_i e
    subst e
    revert h
    decide
  · omega

theorem test_witness_SolverIsSoundAndComplete :
    (∀ q ∈ [Equation.mk [1, 2] 3, Equation.mk [2, 4] 7], q.coeffs.length = 2) ∧
    solve 2 [⟨[1, 2], 3⟩] = some [3, 0] ∧ solve 2 [⟨[1, 2], 3⟩, ⟨[2, 4], 7⟩] = none := by decide

/-- DECBW-7: M = K + 1 and e = 0, with the solution Q = [A5, 37, C2] and no error locator coefficient. -/
theorem test_witness_SolutionChoiceDoesNotMatter :
    ([1, 2, 3, 4] : List Elem).Nodup ∧ errorBound 4 3 = 0 ∧
    (∀ r ∈ List.zipWith (bwRow 3 0) [1, 2, 3, 4] [0x50, 0xEE, 0x1B, 0xED], r.holds ([0xA5, 0x37, 0xC2] ++ []) = true) ∧
    (∀ c ∈ (polyDivMod 3 [0xA5, 0x37, 0xC2] []).2, c = 0) ∧
    bwPoly [1, 2, 3, 4] [0x50, 0xEE, 0x1B, 0xED] 3 = some [0xA5, 0x37, 0xC2] := by decide

theorem test_witness_DivisionIdentity : ([1, 2, 3] : List Elem).length = ([5] : List Elem).length + 2 := by decide

/-- A command that fails, and one that does not, with and without an earlier error: the premises of the completion statements. -/
theorem test_witness_completions :
    (∃ t, exec (.ginv 4 5) idle = .next t ∧ t.lerr ≠ .ok ∧ idle.ferr = .ok) ∧
    (∃ t, exec (.gldi 4 5) idle = .next t ∧ t.lerr = .ok) ∧
    ∃ t, exec (.ginv 4 5) ({ idle with ferr := .param } : State) = .next t ∧ t.ferr = .param :=
  ⟨⟨_, rfl, by decide, by decide⟩, ⟨_, rfl, by decide⟩, ⟨_, rfl, by decide⟩⟩

/-- The frames: a register that is not the destination, and a byte that is not stored to, for a register command, a store and a
decode. -/
theorem test_witness_frames :
    (∃ t, exec (.gadd 3 1 2) idle = .next t) ∧ destReg (.gadd 3 1 2) ≠ some 1 ∧
    (∃ t, exec (.gst 3 0x010) idle = .next t) ∧ destReg (.gst 3 0x010) ≠ some 3 ∧ 0x011 ∉ storeAddrs idle (.gst 3 0x010) ∧
    (∃ t, exec .dece (decodeState [1, 2, 3] [0x50, 0xEE, 0x1B] 3 3 0) = .next t) ∧
    0x203 ∉ storeAddrs (decodeState [1, 2, 3] [0x50, 0xEE, 0x1B] 3 3 0) .dece :=
  ⟨⟨_, rfl⟩, by decide, ⟨_, rfl⟩, by decide, by decide, ⟨_, rfl⟩, by decide⟩

theorem test_witness_StepRunsTheLatchedCommand :
    (withFlight 0x04048000 0 idle).phase = .running { cl := 0x04048000, params := Params.zero, wait := 0 } ∧
    (∀ rest, (withFlight 0x04048000 0 idle).host ≠ .reset :: rest) ∧ decode 0x04048000 = .instr (.gadd 0 1 2) :=
  ⟨rfl, noReset_of_nil, by decide⟩

theorem test_witness_IdleStepPerformsTheHostsTransaction :
    idle.phase = .idle ∧ idle.host = [] ∧ (withHost [.write 0x00C 0x14000000] idle).host = .write 0x00C 0x14000000 :: [] ∧
    (withHost [.read 0x008] idle).host = .read 0x008 :: [] ∧ (withHost [.poll] idle).host = .poll :: [] := by decide

/-- A window in progress: the command's last waiting step, and the initialisation window's last step. -/
theorem test_witness_hostInBusyWindow :
    (withFlight 0x40400077 1 idle).hostInBusyWindow ∧ ({ idle with phase := .init 0 } : State).hostInBusyWindow := by
  decide

theorem test_witness_CmdWriteAcceptsWhenIdle :
    portReg 0x00F = .cmd ∧ idle.phase = .idle ∧ (withHost [.write 0x00F 0] idle).host = .write 0x00F 0 :: [] ∧
    (withHost [.write 0x00F 0] (withFlight 0x40400077 1 idle)).hostInBusyWindow := by decide

theorem test_witness_ProtectedWritesAreDroppedWhileBusy :
    ([0x00C, 0x010, 0x014, 0x018, 0x01C] : List PortOffset).map portReg = [PortReg.cmd, .decX, .decY, .decO, .decMk] ∧
    portReg 0x040 = .reg 0 ∧ portReg 0x07F = .reg 15 ∧ portReg 0x400 = .lmem 0 ∧ portReg 0x7FF = .lmem 255 ∧
    (withHost [.write 0x07F 0] (withFlight 0x40400077 1 idle)).hostInBusyWindow := by decide

theorem test_witness_CtrlClearsTheErrorState :
    portReg 0x006 = .ctrl ∧ (withHost [.write 0x006 3] idle).host = .write 0x006 3 :: [] ∧ idle.phase = .idle ∧
    (withHost [.write 0x006 3] (withFlight 0x40400077 1 idle)).hostInBusyWindow ∧
    (3 : Word).getLsbD 0 = true ∧ (2 : Word).getLsbD 0 = false := by decide

theorem test_witness_notBusy : idle.busy = false := by decide

/-- The unassigned offsets at the ends of their three ranges (PortMapIsTheSpecs). -/
theorem test_witness_PortMapIsTheSpecs :
    (([0x020, 0x03F, 0x080, 0x3FF, 0x800, 0xFFF] : List PortOffset).all fun off =>
      (0x020 ≤ off.toNat ∧ off.toNat < 0x040) ∨ (0x080 ≤ off.toNat ∧ off.toNat < 0x400) ∨ 0x800 ≤ off.toNat) = true ∧
    ([0x01F, 0x040, 0x07F, 0x400, 0x7FF] : List PortOffset).map portReg =
      [.decMk, .reg 0, .reg 15, .lmem 0, .lmem 255] := by decide

theorem test_witness_ReadsHaveNoSideEffect :
    (withHost [.read 0x040] idle).host = .read 0x040 :: [] ∧ idle.phase = .idle ∧ portReg 0x040 = .reg 0 ∧
    portReg 0x7FC = .lmem 255 ∧ (∀ i, portReg 0x008 ≠ .reg i) ∧ (∀ v, portReg 0x008 ≠ .lmem v) ∧
    Memory.read (4 * (255 : BitVec 8).toNat + 3) (withBytes 0x3FF [0x42] idle).lmem = some 0x42 ∧
    (withHost [.read 0x040] (withFlight 0x40400077 1 idle)).hostInBusyWindow := by
  refine ⟨by decide, by decide, by decide, by decide, ?_, ?_, by decide, by decide⟩ <;>
  · rw [show portReg 0x008 = .status by decide]
    simp

theorem test_witness_BusyWindowKeepsTheOperands :
    (∀ rest, (withHost [.write 0x010 5] (withFlight 0x14000000 1 idle)).host ≠ .reset :: rest) ∧
    ∃ t, step (withHost [.write 0x010 5] (withFlight 0x14000000 1 idle)) = .next t ∧
      t.phase = .running { cl := 0x14000000, params := Params.zero, wait := 0 } :=
  ⟨by simp [withHost], _, rfl, rfl⟩

theorem test_witness_EveryAcceptedCommandCompletes :
    HostEvent.reset ∉ (withHost [.poll] (withFlight 0x14000000 5 idle)).host := by decide

theorem test_witness_PollReturnsAfterCompletion :
    (withHost [.poll] (withFlight 0x40400077 5 idle)).phase =
      .running { cl := 0x40400077, params := Params.zero, wait := 5 } ∧
    (withHost [.poll] (withFlight 0x40400077 5 idle)).host = .poll :: [] := ⟨rfl, rfl⟩

theorem test_witness_IssuedCommandRunsToItsEnd :
    (withHost (issue .dece ++ [.read 0x008]) idle).phase = .idle ∧
    (withHost (issue .dece ++ [.read 0x008]) idle).host = issue .dece ++ [.read 0x008] := by decide

/-- The last group of LMEM, padded. -/
theorem test_witness_WriteBytesNotation :
    1020 % 4 = 0 ∧ 1020 + ([1, 2, 3] : List Elem).length ≤ 1024 ∧
    (withHost (writeBytes 1020 [1, 2, 3]) idle).host = writeBytes 1020 [1, 2, 3] ∧ idle.phase = .idle := by decide

theorem test_witness_FerrIsSticky :
    (∃ t, step (withHost [.write 0x004 1] ({ idle with ferr := .param } : State)) = .next t ∧ t.ferr ≠ .param) ∧
    ∃ t, step (withFlight 0x00000000 0 idle) = .next t ∧ idle.ferr = .ok ∧ t.lerr ≠ .ok ∧ idle.host = [] :=
  ⟨⟨_, rfl, by decide⟩, ⟨_, rfl, by decide, by decide, rfl⟩⟩

theorem test_witness_OvrIsSticky :
    (∃ t, step (withHost [.write 0x004 1] ({ idle with ovr := true } : State)) = .next t ∧ t.ovr = false) ∧
    ∃ t, step (withHost [.write 0x07C 1] (withFlight 0x40400077 1 idle)) = .next t ∧ t.ovr = true :=
  ⟨⟨_, rfl, by decide⟩, ⟨_, rfl, by decide⟩⟩

/-- The three ways in which G or LMEM changes. -/
theorem test_witness_GAndLmemChange :
    (∃ t, step (withFlight 0x40400077 0 idle) = .next t ∧ t.g ≠ idle.g) ∧
    (∃ t, step (withHost [.write 0x400 1] idle) = .next t ∧ t.lmem ≠ idle.lmem) ∧
    ∃ t, step (withHost [.reset] (withRegs [(3, 0x12)] idle)) = .next t ∧ t.g ≠ (withRegs [(3, 0x12)] idle).g :=
  ⟨⟨_, rfl, by decide⟩, ⟨_, rfl, by decide⟩, ⟨_, rfl, by decide⟩⟩

theorem test_witness_ResetFromAnyState :
    (withHost [.reset, .poll] (withFlight 0x14000000 3 idle)).host = .reset :: [.poll] := by decide

/-- In the window: a CTRL clear, a protected write, and a read, which is neither; at its last step, and with a step left. -/
theorem test_witness_InitialisationWindowEnds :
    (withHost [.write 0x004 1] (withWindow 0 idle)).writesClear ∧
    (withHost [.write 0x07C 1] (withWindow 0 idle)).writesProtected ∧
    ¬ (withHost [.read 0x008] (withWindow 1 idle)).writesClear ∧
    ¬ (withHost [.read 0x008] (withWindow 1 idle)).writesProtected ∧
    (withHost [.read 0x008] (withWindow 1 idle)).phase = .init 1 ∧
    (∀ rest, (withHost [.read 0x008] (withWindow 1 idle)).host ≠ .reset :: rest) ∧
    HostEvent.reset ∉ (withHost [.read 0x008] (withWindow 1 idle)).host :=
  ⟨⟨0x004, 1, [], rfl, by decide, by decide⟩, ⟨0x07C, 1, [], rfl, .inr (.inl ⟨15, by decide⟩)⟩,
    by simp [State.writesClear, withHost], by simp [State.writesProtected, withHost], rfl, by simp [withHost], by decide⟩

/-- A state with a command in flight, an error recorded and LMEM written meets the invariant. -/
theorem test_witness_StepKeepsInv :
    (withFlight 0x14000000 3 ({ decodeState [1, 2, 3] [0x50, 0xEE, 0x1B] 3 3 0 with lerr := .param, ferr := .param } : State)).Inv ∧
    ∃ t, step (withFlight 0x14000000 3 ({ decodeState [1, 2, 3] [0x50, 0xEE, 0x1B] 3 3 0 with
      lerr := .param, ferr := .param } : State)) = .next t :=
  ⟨by decide, _, rfl⟩

end Sys2Proof.Machine.Tests
end

section
/-! PROOFS. The error state of STATUS: what each event of a step does to LERR, FERR and OVR (10_state.md R42 to R45). -/

namespace Sys2Proof.Machine

/-! ### Port writes -/

/-- A port write while BUSY = 0 keeps LERR, FERR and OVR, unless it is the write of CTRL that clears them (R45). -/
theorem State.portWrite_idle_flags {s : State} (hb : s.busy = false) (data : Word) (r : PortReg) :
    ((s.portWrite data r).lerr = s.lerr ∧ (s.portWrite data r).ferr = s.ferr ∧ (s.portWrite data r).ovr = s.ovr) ∨
    (r = .ctrl ∧ data.getLsbD 0 = true ∧ s.portWrite data r = s.clearErrors) := by
  cases r with
  | ctrl =>
    by_cases hw : data.getLsbD 0 = true
    · exact .inr ⟨rfl, hw, if_pos hw⟩
    · have hkeep : s.portWrite data .ctrl = s := if_neg hw
      exact .inl (by simp [hkeep])
  | _ => exact .inl (by simp [State.portWrite, State.unlessBusy_idle hb])

/-- A protected port write while BUSY = 1 is dropped and sets OVR (R44). -/
theorem State.portWrite_protected_busy {s : State} (hb : s.busy = true) (data : Word) {r : PortReg}
    (hr : r.isProtected) : s.portWrite data r = s.setOvr := by
  rw [State.portWrite_busy hb]
  cases r with
  | id | ctrl | status | unassigned => simp [PortReg.isProtected] at hr
  | _ => rfl

/-! ### The step inside a BUSY window -/

theorem State.busy_of_inBusyWindow {s : State} (h : s.hostInBusyWindow) : s.busy = true := by
  cases hp : s.phase with
  | idle => simp [State.hostInBusyWindow, State.inBusyWindow, hp] at h
  | _ => simp [State.busy, hp]

theorem step_of_inBusyWindow {s : State} (hr : ∀ rest, s.host ≠ .reset :: rest) (h : s.hostInBusyWindow) :
    step s = .next s.hostTurn.tick := by
  cases hp : s.phase with
  | idle => simp [State.hostInBusyWindow, State.inBusyWindow, hp] at h
  | init n => exact step_of_init hr hp
  | running f => exact step_of_waiting hr hp (by simpa [State.hostInBusyWindow, State.inBusyWindow, hp] using h)

/-- The step in which a protected write is dropped: OVR rises and the window goes on (R44). -/
theorem step_of_protectedWrite_busy {s : State} {off : PortOffset} {w : Word} {rest : List HostEvent}
    (hb : s.hostInBusyWindow) (hh : s.host = .write off w :: rest) (hr : (portReg off).isProtected) :
    step s = .next { s.setOvr with host := rest, pready := true }.tick := by
  have hturn : s.hostTurn = { s.setOvr with host := rest, pready := true } := by
    have hbusy : { s with host := rest }.busy = true := State.busy_of_inBusyWindow hb
    simp only [State.hostTurn, hh, State.performWrite, State.portWrite_protected_busy hbusy w hr]
    rfl
  rw [step_of_inBusyWindow (by simp [hh]) hb, hturn]

/-! ### The completion step -/

/-- The completion step records its code, in FERR only as the first error, and keeps OVR (R42 to R44). -/
theorem step_completing_flags {s t : State} {f : Flight} (hr : ∀ rest, s.host ≠ .reset :: rest)
    (hp : s.phase = .running f) (hw : f.wait = 0) (h : step s = .next t) :
    t.ferr = (if t.lerr ≠ .ok ∧ s.ferr = .ok then t.lerr else s.ferr) ∧ t.ovr = s.ovr := by
  obtain ⟨r, hfin⟩ := runLatched_eq_finish f.cl s.noTransaction
  rw [step_of_completing hr hp hw, hfin] at h
  cases h
  obtain ⟨hferr, hovr, -⟩ := s.noTransaction.finish_fields r
  exact ⟨hferr, hovr⟩

/-! ### Every step -/

/-- What a step can do to FERR and OVR: clear both, by a reset or a write of CTRL; record a completion's code; or keep FERR,
with OVR kept or set by a protected write while BUSY = 1. -/
theorem step_flags {s t : State} (h : step s = .next t) :
    (((∃ rest, s.host = .reset :: rest) ∨ s.writesClear) ∧ t.ferr = .ok ∧ t.ovr = false) ∨
    (∃ f, s.phase = .running f ∧ f.wait = 0 ∧
      t.ferr = (if t.lerr ≠ .ok ∧ s.ferr = .ok then t.lerr else s.ferr) ∧ t.ovr = s.ovr) ∨
    (t.ferr = s.ferr ∧ (t.ovr = s.ovr ∨ (t.ovr = true ∧ s.busy = true ∧ s.writesProtected))) := by
  rcases step_cases s with ⟨rest, hh, hs⟩ | ⟨hr, ⟨hp, hs⟩ | ⟨-, hb, hs⟩ | ⟨f, r, hp, hw, -, -⟩⟩
  · -- a reset
    cases hs.symm.trans h
    exact .inl ⟨.inl ⟨rest, hh⟩, rfl, rfl⟩
  · -- the host's turn while BUSY = 0
    cases hs.symm.trans h
    rcases State.hostTurn_idle hp hr with ⟨off, w, rest, hh, hturn⟩ | ⟨-, -, -, -, -, -, hferr, hovr⟩
    · rw [hturn]
      have hb : s.busy = false := by simp [State.busy, hp]
      rcases State.portWrite_idle_flags hb w (portReg off) with ⟨-, hferr, hovr⟩ | ⟨hctrl, hbit, hclear⟩
      · exact .inr (.inr ⟨hferr, .inl hovr⟩)
      · exact .inl ⟨.inr ⟨off, w, rest, hh, hctrl, hbit⟩, by simp [hclear], by simp [hclear]⟩
    · exact .inr (.inr ⟨hferr, .inl hovr⟩)
  · -- the host's turn inside a BUSY window
    cases hs.symm.trans h
    obtain ⟨-, -, -, -, -, ⟨-, hferr, hovr⟩ | ⟨hclear, -, hferr, hovr⟩⟩ := State.hostTurn_busy hb hr
    · exact .inr (.inr ⟨by simpa using hferr, by simpa using hovr.imp_right fun ⟨hset, hprot⟩ => ⟨hset, hb, hprot⟩⟩)
    · exact .inl ⟨.inr hclear, by simpa using hferr, by simpa using hovr⟩
  · -- a completion
    exact .inr (.inl ⟨f, hp, hw, step_completing_flags hr hp hw h⟩)

/-- Settles O47: FERR changes only in a completion that finds it OK, or where the error state is cleared. -/
theorem ferrIsSticky : Obligations.FerrIsSticky := by
  intro s t h
  refine ⟨fun f hp hw hr hok hne => ?_, fun hne => ?_⟩
  · obtain ⟨hferr, -⟩ := step_completing_flags hr hp hw h
    rwa [if_pos ⟨hne, hok⟩] at hferr
  · rcases step_flags h with ⟨hby, hferr, -⟩ | ⟨f, hp, hw, hferr, -⟩ | ⟨hferr, -⟩
    · exact .inr ⟨hferr, hby⟩
    · by_cases hfirst : t.lerr ≠ .ok ∧ s.ferr = .ok
      · rw [if_pos hfirst] at hferr
        exact .inl ⟨f, hp, hw, hfirst.2, hfirst.1, hferr⟩
      · rw [if_neg hfirst] at hferr
        exact absurd hferr hne
    · exact absurd hferr hne

/-- Settles O48: OVR falls only where the error state is cleared, and rises only by a dropped protected write. -/
theorem ovrIsSticky : Obligations.OvrIsSticky := by
  intro s t h
  refine ⟨fun hset hclr => ?_, fun hclr hset => ?_, fun off w rest hb hh hr => ?_⟩
  · rcases step_flags h with ⟨hby, -, -⟩ | ⟨f, -, -, -, hovr⟩ | ⟨-, hovr | ⟨hovr, -, -⟩⟩
    · exact hby
    · simp [← hovr, hclr] at hset
    · simp [← hovr, hclr] at hset
    · simp [hovr] at hclr
  · rcases step_flags h with ⟨-, -, hovr⟩ | ⟨f, -, -, -, hovr⟩ | ⟨-, hovr | ⟨-, hprot⟩⟩
    · simp [hovr] at hset
    · simp [hovr, hclr] at hset
    · simp [hovr, hclr] at hset
    · exact hprot
  · cases (step_of_protectedWrite_busy hb hh hr).symm.trans h
    simp

end Sys2Proof.Machine
end

section
/-! PROOFS. The word of STATUS, and the port's two read-only registers (10_state.md R40, R47). -/

namespace Sys2Proof.Machine

/-- The parts of a word put together in the widths of STATUS's fields, read back. -/
theorem extract_of_statusLayout (z₁ : BitVec 7) (ovr : BitVec 1) (z₂ ferr z₃ lerr : BitVec 4) (z₄ : BitVec 7)
    (busy : BitVec 1) {w : BitVec (7 + 1 + 4 + 4 + 4 + 4 + 7 + 1)}
    (h : w = z₁ ++ ovr ++ z₂ ++ ferr ++ z₃ ++ lerr ++ z₄ ++ busy) :
    w.extractLsb' 0 1 = busy ∧ w.extractLsb' 1 7 = z₄ ∧ w.extractLsb' 8 4 = lerr ∧ w.extractLsb' 12 4 = z₃ ∧
      w.extractLsb' 16 4 = ferr ∧ w.extractLsb' 20 4 = z₂ ∧ w.extractLsb' 24 1 = ovr ∧ w.extractLsb' 25 7 = z₁ := by
  subst h
  -- not the full simp set, which would first add up the width that the appends are stated at
  simp only [BitVec.extractLsb'_append_eq_of_le, BitVec.extractLsb'_append_eq_right, BitVec.extractLsb'_eq_self,
    Nat.reduceLeDiff, Nat.reduceSub, Nat.le_refl, and_self]

/-- Settles O40: both registers ignore writes by definition, and STATUS is laid out field by field. -/
theorem idAndStatusReadAsSpecified : Obligations.IdAndStatusReadAsSpecified := by
  intro s
  exact ⟨rfl, fun _ => ⟨rfl, rfl⟩,
    extract_of_statusLayout 0 (BitVec.ofBool s.ovr) 0 s.ferr.bits 0 s.lerr.bits 0 (BitVec.ofBool s.busy) rfl⟩

end Sys2Proof.Machine
end

section
/-! PROOFS. The ROM tables of the field: LOG inverts ALOG, and ALOG lists the powers of the generator (10_state.md R34, R35). -/

namespace Sys2Proof.Machine

/-- A fact about every table index below 256 from the fact about every byte. -/
theorem forall_lt_256_of_byte {p : Nat → Prop} (h : ∀ b : BitVec 8, p b.toNat) {i : Nat} (hi : i < 256) : p i := by
  simpa [Nat.mod_eq_of_lt hi] using h (BitVec.ofNat 8 i)

/-! ### The tables' entries, checked one by one -/

theorem alog_log {a : Elem} (ha : a ≠ 0) : alog (log a) = a :=
  (by decide : ∀ a : Elem, a ≠ 0 → alog (log a) = a) a ha

theorem log_le {a : Elem} (ha : a ≠ 0) : log a ≤ 254 :=
  (by decide : ∀ a : Elem, a ≠ 0 → log a ≤ 254) a ha

theorem log_alog {i : Nat} (hi : i < 255) : log (alog i) = i :=
  forall_lt_256_of_byte (p := fun i => i < 255 → log (alog i) = i) (by decide) (by omega) hi

theorem alog_ne_zero {i : Nat} (hi : i < 256) : alog i ≠ 0 :=
  forall_lt_256_of_byte (p := fun i => alog i ≠ 0) (by decide) hi

theorem alog_succ_eq_xtime {i : Nat} (hi : i < 255) : alog (i + 1) = alog i ^^^ xtime (alog i) :=
  forall_lt_256_of_byte (p := fun i => i < 255 → alog (i + 1) = alog i ^^^ xtime (alog i)) (by decide) (by omega) hi

/-- The generator has order 255: ALOG[255] = ALOG[0], so exponents count modulo 255. -/
theorem alog_mod_255 {i : Nat} (hi : i < 256) : alog (i % 255) = alog i := by
  rcases (by omega : i < 255 ∨ i = 255) with hlt | rfl
  · rw [Nat.mod_eq_of_lt hlt]
  · rfl

/-! ### Powers of the generator -/

/-- The product of two non-zero elements adds their logarithms (40_field_arith.md R141). -/
theorem gmul_of_ne_zero {a b : Elem} (ha : a ≠ 0) (hb : b ≠ 0) : gmul a b = alog ((log a + log b) % 255) :=
  if_neg (not_or.2 ⟨ha, hb⟩)

theorem alog_succ_eq_gmul {i : Nat} (hi : i < 255) : alog (i + 1) = gmul (alog i) 0x03 := by
  have hlog : log 0x03 = 1 := rfl
  rw [gmul_of_ne_zero (alog_ne_zero (by omega)) (by decide), log_alog hi, hlog, alog_mod_255 (by omega)]

theorem alog_eq_gpow {i : Nat} (hi : i ≤ 255) : alog i = gpow 0x03 i := by
  induction i with
  | zero => rfl
  | succ i ih => rw [gpow, ← ih (by omega), alog_succ_eq_gmul (by omega)]

/-- Settles O8: ALOG's recurrence gives the powers of 0x03, and LOG is its inverse below 255, which makes the index unique. -/
theorem tablesArePowersOfTheGenerator : Obligations.TablesArePowersOfTheGenerator := by
  refine ⟨fun i hi => alog_eq_gpow hi, rfl, fun i hi => ⟨alog_succ_eq_gmul hi, alog_succ_eq_xtime hi⟩, rfl,
    fun a ha => ⟨log_le ha, alog_log ha, fun i hi h => ?_⟩⟩
  rw [← h, log_alog (by omega)]

end Sys2Proof.Machine
end

section
/-! PROOFS. The port map, and the LMEM window behind it (20_memory.md R71 to R73). -/

namespace Sys2Proof.Machine

/-! ### The LMEM window -/

/-- The bytes of a word, put together from the highest to the lowest. -/
theorem append_wordBytes (w : Word) : wordByte w 3 ++ wordByte w 2 ++ wordByte w 1 ++ wordByte w 0 = w := by
  have h32 : w.extractLsb' 24 8 ++ w.extractLsb' 16 8 = w.extractLsb' 16 16 :=
    BitVec.extractLsb'_append_extractLsb'_eq_extractLsb' rfl
  have h321 : w.extractLsb' 16 16 ++ w.extractLsb' 8 8 = w.extractLsb' 8 24 :=
    BitVec.extractLsb'_append_extractLsb'_eq_extractLsb' rfl
  have h3210 : w.extractLsb' 8 24 ++ w.extractLsb' 0 8 = w := BitVec.extractLsb'_append_extractLsb'
  simp only [wordByte, Nat.reduceMul, h32, h321, h3210]

/-- A window write changes LMEM and no other register. -/
theorem State.writeWindow_eq (v : BitVec 8) (w : Word) (s : State) :
    s.writeWindow v w = { s with lmem := (s.writeWindow v w).lmem } := rfl

theorem read_writeWindow_self (v : BitVec 8) (w : Word) (s : State) {i : Nat} (hi : i < 4) :
    Memory.read (4 * v.toNat + i) (s.writeWindow v w).lmem = some (wordByte w i) := by
  rw [read_writeWindow, if_pos (by omega), Nat.add_sub_cancel_left]

theorem read_writeWindow_of_ne (v : BitVec 8) (w : Word) (s : State) {a : Nat} (ha : ∀ i < 4, a ≠ 4 * v.toNat + i) :
    Memory.read a (s.writeWindow v w).lmem = Memory.read a s.lmem := by
  rw [read_writeWindow, if_neg]
  rintro ⟨hle, hlt⟩
  exact ha (a - 4 * v.toNat) (by omega) (by omega)

/-- The window word just written reads as the word written. -/
theorem windowWord_writeWindow (v : BitVec 8) (w : Word) (s : State) : (s.writeWindow v w).windowWord v = w := by
  have hbyte : ∀ i < 4, (s.writeWindow v w).loadByte (4 * v.toNat + i) = wordByte w i := fun i hi =>
    State.loadByte_written (read_writeWindow_self v w s hi)
  have hbyte0 : (s.writeWindow v w).loadByte (4 * v.toNat) = wordByte w 0 := hbyte 0 (by omega)
  rw [State.windowWord, hbyte 3 (by omega), hbyte 2 (by omega), hbyte 1 (by omega), hbyte0, append_wordBytes]

theorem State.portWrite_lmem_idle {s : State} (hb : s.busy = false) (w : Word) (v : BitVec 8) :
    s.portWrite w (.lmem v) = s.writeWindow v w :=
  State.unlessBusy_idle hb _

theorem State.portRead_lmem_idle {s : State} (hb : s.busy = false) (v : BitVec 8) :
    s.portRead (.lmem v) = s.windowWord v := by
  simp [State.portRead, hb]

/-- Settles O38: while BUSY = 0 the port reads and writes the window word, whose bytes are read back one by one. -/
theorem lmemWindowIsLittleEndian : Obligations.LmemWindowIsLittleEndian := by
  intro s w v hb
  rw [State.portWrite_lmem_idle hb, State.portRead_lmem_idle hb]
  have hbusy : (s.writeWindow v w).busy = false := hb
  refine ⟨(s.writeWindow v w).lmem, State.writeWindow_eq v w s, fun i hi => read_writeWindow_self v w s hi,
    fun a ha => read_writeWindow_of_ne v w s ha, rfl, ?_⟩
  rw [State.portRead_lmem_idle hbusy, windowWord_writeWindow]

/-! ### The port map -/

/-- The mask of R73 rounds an offset down to a multiple of 4. -/
theorem toNat_and_0xFFC (off : PortOffset) : (off &&& 0xFFC).toNat = off.toNat / 4 * 4 := by
  have hoff : off.toNat < 4096 := off.isLt
  have hmod : (off.toNat &&& 0xFFC) % 2 ^ 2 = 0 := by
    rw [Nat.and_mod_two_pow, show 0xFFC % 2 ^ 2 = 0 from rfl, Nat.and_zero]
  have hdiv : (off.toNat &&& 0xFFC) / 2 ^ 2 = off.toNat / 4 := by
    rw [Nat.and_div_two_pow, show 0xFFC / 2 ^ 2 = 2 ^ 10 - 1 from rfl, Nat.and_two_pow_sub_one_eq_mod]
    omega
  rw [BitVec.toNat_and, show (0xFFC : PortOffset).toNat = 0xFFC from rfl]
  omega

/-- Bits [1:0] of an offset are ignored (R73). -/
theorem portReg_and_0xFFC (off : PortOffset) : portReg (off &&& 0xFFC) = portReg off := by
  rw [portReg, BitVec.and_assoc, BitVec.and_self, ← portReg]

/-- Past the control registers the map has two windows, one of Gi and one of LMEM, and nothing else (R71). -/
theorem portReg_of_ge_0x020 {off : PortOffset} (h : 0x020 ≤ off.toNat) :
    portReg off =
      if 0x040 ≤ off.toNat ∧ off.toNat < 0x080 then .reg (Fin.ofNat 16 ((off.toNat - 0x040) / 4))
      else if 0x400 ≤ off.toNat ∧ off.toNat < 0x800 then .lmem (BitVec.ofNat 8 ((off.toNat - 0x400) / 4))
      else .unassigned := by
  have hreg : 0x040 ≤ off.toNat / 4 * 4 ∧ off.toNat / 4 * 4 ≤ 0x07C ↔ 0x040 ≤ off.toNat ∧ off.toNat < 0x080 := by
    omega
  have hlmem : 0x400 ≤ off.toNat / 4 * 4 ∧ off.toNat / 4 * 4 ≤ 0x7FC ↔ 0x400 ≤ off.toNat ∧ off.toNat < 0x800 := by
    omega
  have hindex : (off.toNat / 4 * 4 - 0x040) / 4 = (off.toNat - 0x040) / 4 := by omega
  have hword : (off.toNat / 4 * 4 - 0x400) / 4 = (off.toNat - 0x400) / 4 := by omega
  simp only [portReg, toNat_and_0xFFC, hreg, hlmem, hindex, hword]
  -- none of the eight control registers
  iterate 8 rw [if_neg (by omega)]

theorem portReg_reg (i : RegIdx) : portReg (BitVec.ofNat 12 (0x040 + 4 * i.val)) = .reg i := by
  have hi : i.val < 16 := i.isLt
  have hoff : (BitVec.ofNat 12 (0x040 + 4 * i.val)).toNat = 0x040 + 4 * i.val :=
    (BitVec.toNat_ofNat ..).trans (Nat.mod_eq_of_lt (by omega))
  have hindex : (0x040 + 4 * i.val - 0x040) / 4 = i.val := by omega
  rw [portReg_of_ge_0x020 (by omega), hoff, if_pos (by omega), hindex, Fin.ofNat_val_eq_self]

theorem portReg_lmem (v : BitVec 8) : portReg (BitVec.ofNat 12 (0x400 + 4 * v.toNat)) = .lmem v := by
  have hv : v.toNat < 256 := v.isLt
  have hoff : (BitVec.ofNat 12 (0x400 + 4 * v.toNat)).toNat = 0x400 + 4 * v.toNat :=
    (BitVec.toNat_ofNat ..).trans (Nat.mod_eq_of_lt (by omega))
  have hword : (0x400 + 4 * v.toNat - 0x400) / 4 = v.toNat := by omega
  rw [portReg_of_ge_0x020 (by omega), hoff, if_neg (by omega), if_pos (by omega), hword, BitVec.ofNat_toNat,
    BitVec.setWidth_eq]

theorem portReg_unassigned {off : PortOffset} (h : (0x020 ≤ off.toNat ∧ off.toNat < 0x040) ∨
    (0x080 ≤ off.toNat ∧ off.toNat < 0x400) ∨ 0x800 ≤ off.toNat) : portReg off = .unassigned := by
  rw [portReg_of_ge_0x020 (by omega), if_neg (by omega), if_neg (by omega)]

/-- Settles O39: the windows by their bounds, the control registers and the answers of the one-way ones by evaluation. -/
theorem portMapIsTheSpecs : Obligations.PortMapIsTheSpecs :=
  ⟨fun off => (portReg_and_0xFFC off).symm, rfl, rfl, rfl, rfl, rfl, rfl, rfl, rfl, portReg_reg, portReg_lmem,
    fun _ => portReg_unassigned, fun _ _ => ⟨rfl, rfl, rfl, rfl, rfl, rfl⟩⟩

end Sys2Proof.Machine
end

section
/-! PROOFS. The opcode map against the decoder: what a row's match and mask select (30_encoding.md R108, R110, R111). -/

namespace Sys2Proof

/-! ### A row's opcode and reserved bits -/

/-- The opcode a row stands for. -/
def OpcodeRow.opcode (row : OpcodeRow) : BitVec 6 := opcField row.matchWord

/-- The bits below the opcode that a row's mask fixes: the reserved bits of its format (R110). -/
def OpcodeRow.reserved (row : OpcodeRow) : Word := row.maskWord &&& 0x03FFFFFF

/-- A word is its opcode and its 26 other bits. -/
theorem word_eq_iff {v w : Word} : v = w ↔ opcField v = opcField w ∧ v.extractLsb' 0 26 = w.extractLsb' 0 26 := by
  refine ⟨fun h => h ▸ ⟨rfl, rfl⟩, fun ⟨hopc, hrest⟩ => ?_⟩
  have hsplit (x : Word) : opcField x ++ x.extractLsb' 0 26 = x := BitVec.extractLsb'_append_extractLsb'
  rw [← hsplit v, ← hsplit w, hopc, hrest]

/-- Match and mask select by the opcode and the reserved bits, in a row whose mask covers the opcode and whose match value
has no other bit set. -/
theorem OpcodeRow.selects_iff_of {row : OpcodeRow} (hmask : row.maskWord.extractLsb' 26 6 = 0x3F)
    (hmatch : row.matchWord &&& 0x03FFFFFF = 0) (w : Word) :
    row.selects w = true ↔ opcField w = row.opcode ∧ w &&& row.reserved = 0 := by
  have hopc : opcField w = opcField (w &&& row.maskWord) := opcField_of_match hmask rfl
  have hrest : w &&& row.reserved = 0 ↔ (w &&& row.maskWord).extractLsb' 0 26 = row.matchWord.extractLsb' 0 26 := by
    rw [(reservedD_iff row.matchWord).1 hmatch, ← reservedD_iff, reserved, BitVec.and_assoc]
  rw [selects, beq_iff_eq, word_eq_iff, ← hopc, ← hrest, opcode]

/-- Every row of the opcode map is such a row. -/
theorem selects_iff {row : OpcodeRow} (hrow : row ∈ opcodeMap) (w : Word) :
    row.selects w = true ↔ opcField w = row.opcode ∧ w &&& row.reserved = 0 := by
  have hrows : ∀ r ∈ opcodeMap, r.maskWord.extractLsb' 26 6 = 0x3F ∧ r.matchWord &&& 0x03FFFFFF = 0 := by decide
  obtain ⟨hmask, hmatch⟩ := hrows row hrow
  exact OpcodeRow.selects_iff_of hmask hmatch w

/-! ### The rows and the decoder -/

/-- A word with a row's opcode is a command with the row's mnemonic, unless one of the row's reserved bits is set. -/
theorem decode_of_opcode {row : OpcodeRow} (hrow : row ∈ opcodeMap) {w : Word} (h : opcField w = row.opcode) :
    ∃ i : Instr, i.mnemonic = row.mnemonic ∧ decode w = unlessReserved w row.reserved i := by
  simp only [opcodeMap, List.mem_cons, List.not_mem_nil, or_false] at hrow
  obtain rfl | rfl | rfl | rfl | rfl | rfl | rfl | rfl | rfl := hrow
  · exact ⟨_, rfl, decode_gadd h⟩
  · exact ⟨_, rfl, decode_gmul h⟩
  · exact ⟨_, rfl, decode_ginv h⟩
  · exact ⟨_, rfl, decode_peval h⟩
  · exact ⟨_, rfl, decode_dece h⟩
  · exact ⟨_, rfl, decode_decbw h⟩
  · exact ⟨_, rfl, decode_gldi h⟩
  · exact ⟨_, rfl, decode_gld h⟩
  · exact ⟨_, rfl, decode_gst h⟩

/-- A word that decodes to a command has the opcode of a row. -/
theorem exists_row_of_decode {w : Word} {i : Instr} (h : decode w = .instr i) :
    ∃ row ∈ opcodeMap, opcField w = row.opcode := by
  by_cases hopc : opcField w ∈ assignedOpcodes
  · rw [show assignedOpcodes = opcodeMap.map OpcodeRow.opcode from rfl, List.mem_map] at hopc
    obtain ⟨row, hrow, heq⟩ := hopc
    exact ⟨row, hrow, heq.symm⟩
  · rw [decode_reserved hopc] at h
    cases h

/-- A word that a row selects decodes to a command with the row's mnemonic. -/
theorem decode_of_selects {row : OpcodeRow} (hrow : row ∈ opcodeMap) {w : Word} (h : row.selects w = true) :
    ∃ i : Instr, decode w = .instr i ∧ i.mnemonic = row.mnemonic := by
  obtain ⟨hopc, hrsv⟩ := (selects_iff hrow w).1 h
  obtain ⟨i, hi, hdec⟩ := decode_of_opcode hrow hopc
  exact ⟨i, hdec.trans (unlessReserved_of_zero hrsv), hi⟩

/-- A word that decodes to a command is selected by a row with the command's mnemonic. -/
theorem selects_of_decode {w : Word} {i : Instr} (h : decode w = .instr i) :
    ∃ row ∈ opcodeMap, row.mnemonic = i.mnemonic ∧ row.selects w = true := by
  obtain ⟨row, hrow, hopc⟩ := exists_row_of_decode h
  obtain ⟨j, hj, hdec⟩ := decode_of_opcode hrow hopc
  obtain ⟨hrsv, rfl⟩ := unlessReserved_eq_instr.1 (hdec.symm.trans h)
  exact ⟨row, hrow, hj.symm, (selects_iff hrow w).2 ⟨hopc, hrsv⟩⟩

/-- No two rows have the same mnemonic. -/
theorem opcodeMap_mnemonics_nodup : (opcodeMap.map OpcodeRow.mnemonic).Nodup := by decide

theorem selects_iff_decode {row : OpcodeRow} (hrow : row ∈ opcodeMap) (w : Word) :
    row.selects w = true ↔ ∃ i : Instr, decode w = .instr i ∧ i.mnemonic = row.mnemonic := by
  refine ⟨decode_of_selects hrow, fun ⟨i, hdec, hi⟩ => ?_⟩
  obtain ⟨row', hrow', hmn, hsel⟩ := selects_of_decode hdec
  obtain rfl := List.inj_on_of_nodup_map opcodeMap_mnemonics_nodup hrow' hrow (hmn.trans hi)
  exact hsel

/-- Rows that select one word have one mnemonic, that of the command the word decodes to. -/
theorem mnemonic_eq_of_selects {r q : OpcodeRow} (hr : r ∈ opcodeMap) (hq : q ∈ opcodeMap) {w : Word}
    (hrw : r.selects w = true) (hqw : q.selects w = true) : r.mnemonic = q.mnemonic := by
  obtain ⟨i, hi, hir⟩ := decode_of_selects hr hrw
  obtain ⟨j, hj, hjq⟩ := decode_of_selects hq hqw
  cases hi.symm.trans hj
  exact hir.symm.trans hjq

theorem no_row_selects_iff_illegal (w : Word) :
    (∀ row ∈ opcodeMap, row.selects w = false) ↔ ∃ why, decode w = .illegal why := by
  constructor
  · intro hnone
    cases hdec : decode w with
    | instr i =>
      obtain ⟨row, hrow, -, hsel⟩ := selects_of_decode hdec
      simp [hnone row hrow] at hsel
    | illegal why => exact ⟨why, rfl⟩
  · rintro ⟨why, hdec⟩ row hrow
    refine Bool.eq_false_iff.2 fun hsel => ?_
    obtain ⟨i, hi, -⟩ := decode_of_selects hrow hsel
    cases hi.symm.trans hdec

/-- Settles O3: a row selects by opcode and reserved bits, as the decoder does, and mnemonics tell the rows apart. -/
theorem decodeFollowsTheOpcodeMap : Obligations.DecodeFollowsTheOpcodeMap :=
  ⟨fun w _ hrow => selects_iff_decode hrow w,
    fun _ => (List.pairwise_map.1 opcodeMap_mnemonics_nodup).imp_of_mem
      fun hr hq hne ⟨hrw, hqw⟩ => hne (mnemonic_eq_of_selects hr hq hrw hqw),
    no_row_selects_iff_illegal⟩

end Sys2Proof
end

section
/-! PROOFS. The pseudo-instructions (30_encoding.md R115). -/

namespace Sys2Proof

/-- Statements that accept the same operands and stand for the same command assemble alike. -/
theorem Asm.assemble_congr {a b : Asm} (hwf : a.wellFormed = b.wellFormed) (hinstr : a.toInstr = b.toInstr) :
    a.assemble = b.assemble := by
  rw [assemble, assemble, hwf, hinstr]

theorem Instr.toAsm_ne_gsub (i : Instr) (d a b : Nat) : i.toAsm ≠ .gsub d a b := by
  cases i <;> nofun

/-- Settles O6: each expansion is the same command by definition, and a repeated operand is checked once. -/
theorem pseudoInstructionsExpand : Obligations.PseudoInstructionsExpand := by
  refine ⟨fun d a b => rfl, fun d => Asm.assemble_congr ?_ rfl, fun d a => Asm.assemble_congr ?_ rfl, Instr.toAsm_ne_gsub⟩
  · simp only [Asm.wellFormed, Bool.and_self]
  · simp only [Asm.wellFormed, Bool.and_assoc, Bool.and_self]

end Sys2Proof
end

section
/-! PROOFS. The circuit's product (40_field_arith.md R143) read as "add x^i·a for every bit i of b": its reduction is linear and
takes a shift to `xtime`. So it multiplies by the generator as ALOG's recurrence does, which makes it the product by tables. -/

namespace Sys2Proof.Machine

/-! ### Reduction modulo 0x11B -/

/-- One step of the reduction: clear bit `i` by adding 0x11B shifted up to it (R143, second loop). -/
def reduceStep (r : BitVec 15) (i : Nat) : BitVec 15 := if r.getLsbD i then r ^^^ (0x11B#15 <<< (i - 8)) else r

theorem clmulReduce_eq_foldl (r : BitVec 15) :
    clmulReduce r = ([14, 13, 12, 11, 10, 9, 8].foldl reduceStep r).setWidth 8 := rfl

/-- Adding `k` where a bit is set is additive in the bit and the sum together. -/
theorem xor_ite_xor (p q : Bool) (x y k : BitVec n) :
    (if p ^^ q then x ^^^ y ^^^ k else x ^^^ y) = (if p then x ^^^ k else x) ^^^ (if q then y ^^^ k else y) := by
  have hcancel : k ^^^ (k ^^^ y) = y := by rw [← BitVec.xor_assoc, BitVec.xor_self, BitVec.zero_xor]
  cases p <;> cases q <;> simp [BitVec.xor_assoc, BitVec.xor_comm y k, hcancel]

theorem reduceStep_xor (r r' : BitVec 15) (i : Nat) :
    reduceStep (r ^^^ r') i = reduceStep r i ^^^ reduceStep r' i := by
  simp only [reduceStep, BitVec.getLsbD_xor, xor_ite_xor]

theorem clmulReduce_xor (r r' : BitVec 15) : clmulReduce (r ^^^ r') = clmulReduce r ^^^ clmulReduce r' := by
  rw [clmulReduce_eq_foldl, List.foldl_hom₂ _ (· ^^^ ·) reduceStep reduceStep reduceStep _ _
    fun r r' i => (reduceStep_xor r r' i).symm, BitVec.setWidth_xor]
  rfl

theorem xtime_eq_ite (a : Elem) : xtime a = if a.getLsbD 7 then a <<< 1 ^^^ 0x1B else a <<< 1 := by
  unfold xtime
  split <;> simp

/-- A reduction step commutes with a shift, down to bit 8. -/
theorem reduceStep_shift (r : BitVec 15) {i : Nat} (hi : 8 ≤ i ∧ i < 14) :
    reduceStep (r <<< 1) (i + 1) = reduceStep r i <<< 1 := by
  have hbit : (r <<< 1).getLsbD (i + 1) = r.getLsbD i := by simp; omega
  have hpoly : 0x11B#15 <<< (i + 1 - 8) = (0x11B#15 <<< (i - 8)) <<< 1 := by
    rw [← BitVec.shiftLeft_add, Nat.sub_add_comm hi.1]
  rw [reduceStep, hbit, hpoly, ← BitVec.shiftLeft_xor_distrib, reduceStep]
  split <;> rfl

/-- The last step after a shift is `xtime` of what was reduced before it. -/
theorem setWidth_reduceStep_shift (r : BitVec 15) : (reduceStep (r <<< 1) 8).setWidth 8 = xtime (r.setWidth 8) := by
  have hshift : (r <<< 1).setWidth 8 = r.setWidth 8 <<< 1 := by
    ext i hi; simp
  have hbit : (r <<< 1).getLsbD 8 = (r.setWidth 8).getLsbD 7 := by simp
  rw [reduceStep, hbit, xtime_eq_ite, ← hshift]
  split <;> simp

/-- Reduction takes a shift to `xtime` (10_state.md R34), as long as no bit is lost. -/
theorem clmulReduce_shift {r : BitVec 15} (hr : r.getLsbD 14 = false) :
    clmulReduce (r <<< 1) = xtime (clmulReduce r) := by
  have hskip : reduceStep r 14 = r := if_neg (Bool.eq_false_iff.1 hr)
  simp only [clmulReduce_eq_foldl, List.foldl_cons, List.foldl_nil, hskip]
  rw [reduceStep_shift (i := 13), reduceStep_shift (i := 12), reduceStep_shift (i := 11), reduceStep_shift (i := 10),
    reduceStep_shift (i := 9), reduceStep_shift (i := 8), setWidth_reduceStep_shift]
  all_goals decide

/-- x^i·a reduced is `xtime` applied `i` times. -/
theorem clmulReduce_shiftLeft (a : Elem) {i : Nat} (hi : i < 8) : clmulReduce (a.setWidth 15 <<< i) = xtime^[i] a := by
  induction i with
  | zero => exact (by decide : ∀ a : Elem, clmulReduce (a.setWidth 15 <<< 0) = a) a
  | succ i ih =>
    have hlow : (a.setWidth 15 <<< i).getLsbD 14 = false := by
      simp [BitVec.getLsbD_of_ge a (14 - i) (by omega)]
    rw [BitVec.shiftLeft_add, clmulReduce_shift hlow, ih (by omega), Function.iterate_succ_apply']

/-! ### The circuit's product -/

/-- The product adds x^i·a, reduced, for every bit i of b that is set. -/
theorem clmul_eq_foldl (a b : Elem) :
    clmul a b = (List.range 8).foldl (fun r i => if b.getLsbD i then r ^^^ xtime^[i] a else r) 0 := by
  rw [clmul, clmulProduct, ← List.foldl_hom clmulReduce
    (g₂ := fun r i => if b.getLsbD i then r ^^^ clmulReduce (a.setWidth 15 <<< i) else r)]
  · refine List.foldl_ext _ _ _ fun r i hi => ?_
    rw [clmulReduce_shiftLeft a (List.mem_range.1 hi)]
  · intro r i
    rw [apply_ite clmulReduce, clmulReduce_xor]

theorem xtime_xor (a b : Elem) : xtime (a ^^^ b) = xtime a ^^^ xtime b := by
  simp only [xtime_eq_ite, BitVec.getLsbD_xor, BitVec.shiftLeft_xor_distrib, xor_ite_xor]

theorem clmul_xtime (a b : Elem) : clmul (xtime a) b = xtime (clmul a b) := by
  rw [clmul_eq_foldl, clmul_eq_foldl, ← List.foldl_hom xtime
    (g₂ := fun r i => if b.getLsbD i then r ^^^ xtime^[i] (xtime a) else r)]
  · rfl
  · intro r i
    rw [apply_ite xtime, xtime_xor, ← Function.iterate_succ_apply' xtime, Function.iterate_succ_apply]

theorem clmulProduct_xor (a a' b : Elem) : clmulProduct (a ^^^ a') b = clmulProduct a b ^^^ clmulProduct a' b := by
  unfold clmulProduct
  rw [← List.foldl_hom₂ _ (· ^^^ ·)
    (op₃ := fun r i => if b.getLsbD i then r ^^^ ((a ^^^ a').setWidth 15 <<< i) else r)]
  · rfl
  · intro r r' i
    split
    · rw [BitVec.setWidth_xor, BitVec.shiftLeft_xor_distrib]
      ac_rfl
    · rfl

theorem clmul_xor (a a' b : Elem) : clmul (a ^^^ a') b = clmul a b ^^^ clmul a' b := by
  rw [clmul, clmulProduct_xor, clmulReduce_xor, clmul, clmul]

theorem zero_clmul (b : Elem) : clmul 0 b = 0 := by
  simpa using clmul_xor 0 0 b

theorem clmul_zero (a : Elem) : clmul a 0 = 0 := by
  rw [clmul_eq_foldl]
  rfl

theorem one_clmul (b : Elem) : clmul 1 b = b := (by decide : ∀ b : Elem, clmul 1 b = b) b

/-! ### The two products agree -/

/-- The circuit multiplies a power of the generator by adding logarithms. -/
theorem clmul_alog {b : Elem} (hb : b ≠ 0) {i : Nat} (hi : i < 256) :
    clmul (alog i) b = alog ((i + log b) % 255) := by
  induction i with
  | zero =>
    have hlog : log b < 255 := by have := log_le hb; omega
    rw [Nat.zero_add, Nat.mod_eq_of_lt hlog, alog_log hb]
    exact one_clmul b
  | succ i ih =>
    have hlt : (i + log b) % 255 < 255 := Nat.mod_lt _ (by decide)
    calc clmul (alog (i + 1)) b
        = alog ((i + log b) % 255) ^^^ xtime (alog ((i + log b) % 255)) := by
          rw [alog_succ_eq_xtime (by omega), clmul_xor, clmul_xtime, ih (by omega)]
      _ = alog (((i + log b) % 255 + 1) % 255) := by
          rw [← alog_succ_eq_xtime hlt, alog_mod_255 (by omega)]
      _ = alog ((i + 1 + log b) % 255) := by
          rw [Nat.mod_add_mod, Nat.add_right_comm]

/-- Settles O9: zero has product zero, and every other element is a power of the generator. -/
theorem tableProductIsCarryLessProduct : Obligations.TableProductIsCarryLessProduct := by
  intro a b
  by_cases ha : a = 0
  · rw [ha, zero_clmul]; exact if_pos (.inl rfl)
  by_cases hb : b = 0
  · rw [hb, clmul_zero]; exact if_pos (.inr rfl)
  have hlog : log a < 256 := by have := log_le ha; omega
  rw [gmul_of_ne_zero ha hb, ← clmul_alog hb hlog, alog_log ha]

end Sys2Proof.Machine
end

section
/-! PROOFS. The field laws (40_field_arith.md R144): those of the product alone by adding logarithms modulo 255, and
distributivity from the circuit's product, which is linear. -/

namespace Sys2Proof.Machine

/-! ### Field addition (R140) -/

theorem gadd_comm (a b : Elem) : gadd a b = gadd b a := BitVec.xor_comm a b

theorem gadd_assoc (a b c : Elem) : gadd (gadd a b) c = gadd a (gadd b c) := BitVec.xor_assoc a b c

@[simp] theorem gadd_zero (a : Elem) : gadd a 0#8 = a := BitVec.xor_zero

@[simp] theorem gadd_self (a : Elem) : gadd a a = 0#8 := BitVec.xor_self

/-! ### Field multiplication (R141) -/

@[simp] theorem zero_gmul (a : Elem) : gmul 0#8 a = 0#8 := if_pos (.inl rfl)

@[simp] theorem gmul_zero (a : Elem) : gmul a 0#8 = 0#8 := if_pos (.inr rfl)

theorem gmul_comm (a b : Elem) : gmul a b = gmul b a := by
  simp only [gmul, or_comm (a := a = 0), Nat.add_comm (log a)]

theorem gmul_ne_zero {a b : Elem} (ha : a ≠ 0) (hb : b ≠ 0) : gmul a b ≠ 0 := by
  rw [gmul_of_ne_zero ha hb]
  exact alog_ne_zero (by omega)

theorem log_gmul {a b : Elem} (ha : a ≠ 0) (hb : b ≠ 0) : log (gmul a b) = (log a + log b) % 255 := by
  rw [gmul_of_ne_zero ha hb, log_alog (Nat.mod_lt _ (by decide))]

theorem gmul_assoc (a b c : Elem) : gmul (gmul a b) c = gmul a (gmul b c) := by
  by_cases ha : a = 0
  · simp [ha]
  by_cases hb : b = 0
  · simp [hb]
  by_cases hc : c = 0
  · simp [hc]
  rw [gmul_of_ne_zero (gmul_ne_zero ha hb) hc, gmul_of_ne_zero ha (gmul_ne_zero hb hc), log_gmul ha hb, log_gmul hb hc,
    Nat.mod_add_mod, Nat.add_mod_mod, Nat.add_assoc]

@[simp] theorem one_gmul (a : Elem) : gmul 1#8 a = a := by
  rw [tableProductIsCarryLessProduct]
  exact one_clmul a

@[simp] theorem gmul_one (a : Elem) : gmul a 1#8 = a := by
  rw [gmul_comm, one_gmul]

theorem gadd_gmul (a b c : Elem) : gmul (gadd a b) c = gadd (gmul a c) (gmul b c) := by
  simp only [tableProductIsCarryLessProduct _ _, gadd, clmul_xor]

theorem gmul_gadd (a b c : Elem) : gmul a (gadd b c) = gadd (gmul a b) (gmul a c) := by
  rw [gmul_comm, gadd_gmul, gmul_comm b, gmul_comm c]

/-! ### The inverse (R142) -/

@[simp] theorem ginv_zero : ginv 0#8 = none := if_pos rfl

theorem ginv_of_ne_zero {a : Elem} (ha : a ≠ 0) : ginv a = some (alog (255 - log a)) := if_neg ha

/-- The logarithm of an inverse is the negative modulo 255. -/
theorem log_alog_sub (a : Elem) : log (alog (255 - log a)) = (255 - log a) % 255 := by
  rw [← alog_mod_255 (by omega), log_alog (Nat.mod_lt _ (by decide))]

theorem gmul_alog_sub {a : Elem} (ha : a ≠ 0) : gmul a (alog (255 - log a)) = 1 := by
  have hlog := log_le ha
  have hsum : (log a + (255 - log a)) % 255 = 0 := by rw [Nat.add_sub_cancel' (by omega)]
  rw [gmul_of_ne_zero ha (alog_ne_zero (by omega)), log_alog_sub, Nat.add_mod_mod, hsum]
  rfl

theorem ginv_alog_sub {a : Elem} (ha : a ≠ 0) : ginv (alog (255 - log a)) = some a := by
  have hlog := log_le ha
  have hneg : (255 - (255 - log a) % 255) % 255 = log a := by omega
  rw [ginv_of_ne_zero (alog_ne_zero (by omega)), log_alog_sub, ← alog_mod_255 (by omega), hneg, alog_log ha]

/-- Settles O10: each law is a lemma above. -/
theorem fieldLaws : Obligations.FieldLaws :=
  ⟨gadd_comm, gadd_assoc, fun a => ⟨gadd_zero a, gadd_self a⟩, gmul_comm, gmul_assoc,
    fun a => ⟨gmul_one a, gmul_zero a⟩, gmul_gadd,
    fun a ha => ⟨alog (255 - log a), ginv_of_ne_zero ha, gmul_alog_sub ha, ginv_alog_sub ha⟩, ginv_zero⟩

end Sys2Proof.Machine
end

section
/-! PROOFS. GADD, GMUL and GINV: their words, and their effect in every state (40_field_arith.md R145 to R147). -/

namespace Sys2Proof

/-- A word that matches a row is the command of the row's opcode, where the row's mask covers the opcode and the reserved
bits and the match value has no reserved bit set (30_encoding.md R108). -/
theorem decode_of_match {w mask mtch rsv : Word} {i : Instr}
    (hdec : opcField w = mtch.extractLsb' 26 6 → decode w = unlessReserved w rsv i)
    (hrow : mask.extractLsb' 26 6 = 0x3F ∧ mask &&& rsv = rsv ∧ mtch &&& rsv = 0) (h : w &&& mask = mtch) :
    decode w = .instr i := by
  obtain ⟨hopc, hrsv, hmtch⟩ := hrow
  rw [hdec (opcField_of_match hopc h), unlessReserved_of_zero (reserved_of_match hrsv hmtch h)]

/-- A word of Format R with one of bits [13:0] set is illegal (R102, R110). -/
theorem decode_illegal_of_formatR {w : Word} {i : Instr} (hdec : decode w = unlessReserved w 0x00003FFF i)
    (hrsv : w.extractLsb' 0 14 ≠ 0) : decode w = .illegal .reservedBits := by
  rw [hdec, unlessReserved_of_ne (mt (reservedR_iff w).1 hrsv)]

namespace Machine

/-- Settles O12: GADD stages one register write, and its completion commits it. -/
theorem gaddAsSpecified : Obligations.GaddAsSpecified := by
  refine ⟨fun w => decode_of_match decode_gadd (by decide), fun w hopc => decode_illegal_of_formatR (decode_gadd hopc),
    fun rd ra rb s => ?_⟩
  rw [exec_gadd, State.finish_reg, gadd]

/-- Settles O13: GMUL stages one register write, the product by tables, and its completion commits it. -/
theorem gmulAsSpecified : Obligations.GmulAsSpecified := by
  refine ⟨fun w => decode_of_match decode_gmul (by decide), fun w hopc => decode_illegal_of_formatR (decode_gmul hopc),
    fun rd ra rb s => ?_⟩
  rw [exec_gmul, State.finish_reg, gmul]

/-- Settles O14: GINV stages the inverse where there is one; where there is none it ends with an error code and no write. -/
theorem ginvAsSpecified : Obligations.GinvAsSpecified := by
  refine ⟨fun w => decode_of_match decode_ginv (by decide), fun w hopc hrsv => ?_, fun rd ra s hne => ?_,
    fun rd ra s hzero => ?_⟩
  · rw [decode_ginv hopc, unlessReserved_of_ne (mt (reservedU_iff w).1 hrsv)]
  · rw [exec_ginv, ginv_of_ne_zero hne]
    exact congrArg _ (s.finish_reg rd _)
  · have hnone : ginv s.g[ra] = none := (congrArg ginv hzero).trans ginv_zero
    rw [exec_ginv, hnone]
    exact congrArg _ (s.complete_of_error nofun)

end Machine
end Sys2Proof
end

section
/-! PROOFS. Horner's rule as a loop, as a sum of powers and at the point 0 (41_poly_eval.md R171). -/

namespace Sys2Proof.Machine

@[simp] theorem zero_gadd (a : Elem) : gadd 0#8 a = a := BitVec.zero_xor

@[simp] theorem horner_nil (x : Elem) : horner [] x = 0#8 := rfl

@[simp] theorem horner_cons (c : Elem) (cs : List Elem) (x : Elem) :
    horner (c :: cs) x = gadd (gmul (horner cs x) x) c := rfl

theorem horner_eq_foldr (c : List Elem) (x : Elem) : horner c x = c.foldr (fun ci r => gadd (gmul r x) ci) 0 := by
  induction c with
  | nil => rfl
  | cons d cs ih => rw [horner_cons, List.foldr_cons, ih]

/-- The loop's first step, from the highest coefficient alone, is one from 0. -/
theorem horner_concat (c : List Elem) (d x : Elem) :
    horner (c ++ [d]) x = c.foldr (fun ci r => gadd (gmul r x) ci) d := by
  rw [horner_eq_foldr, List.foldr_append]
  simp

/-- A product distributes over a sum of any length. -/
theorem foldr_gadd_gmul (l : List Elem) (x : Elem) :
    gmul (l.foldr gadd 0) x = (l.map fun a => gmul a x).foldr gadd 0 := by
  induction l with
  | nil => exact zero_gmul x
  | cons a l ih => rw [List.foldr_cons, gadd_gmul, ih, List.map_cons, List.foldr_cons]

/-- One more factor x in a term raises its power by one. -/
theorem gmul_gpow_succ (a x : Elem) (i : Nat) : gmul a (gpow x (i + 1)) = gmul (gmul a (gpow x i)) x :=
  (gmul_assoc a (gpow x i) x).symm

/-- The terms c_i times x^i of the sum, the constant term first. -/
def powerTerms (c : List Elem) (x : Elem) : List Elem :=
  (List.range c.length).map fun i => gmul (c.getD i 0) (gpow x i)

/-- Behind the constant term stand the terms of the other coefficients, each with one more factor x. -/
theorem powerTerms_cons (d : Elem) (cs : List Elem) (x : Elem) :
    powerTerms (d :: cs) x = d :: (powerTerms cs x).map fun a => gmul a x := by
  have hconst : gmul d (gpow x 0) = d := gmul_one d
  simp only [powerTerms, List.length_cons, List.range_succ_eq_map, List.map_cons, List.map_map, Function.comp_def,
    List.getD_cons_zero, hconst, Nat.succ_eq_add_one, List.getD_cons_succ, gmul_gpow_succ]

/-- Each step of Horner's rule multiplies every term of the sum so far by x and adds the next constant term. -/
theorem horner_eq_sum (c : List Elem) (x : Elem) : horner c x = (powerTerms c x).foldr gadd 0 := by
  induction c with
  | nil => rfl
  | cons d cs ih => rw [horner_cons, ih, foldr_gadd_gmul, powerTerms_cons, List.foldr_cons, gadd_comm]

theorem horner_at_zero (c : List Elem) : horner c 0 = c.headD 0 := by
  cases c with
  | nil => rfl
  | cons d cs => simp

/-- Settles O11: the loop by its fold, the sum of powers by distributing x over it, the value at 0 by its last step. -/
theorem hornerIsThePowerSum : Obligations.HornerIsThePowerSum :=
  fun c x => ⟨fun d => horner_concat c d x, horner_eq_sum c x, horner_at_zero c⟩

end Sys2Proof.Machine
end

section
/-! PROOFS. PEVAL: its words, and its effect in every state, on either side of the range check (41_poly_eval.md R172). -/

namespace Sys2Proof.Machine

/-- The run of DEG + 1 coefficients ends beyond LMEM exactly when BASE + DEG is beyond 1023. -/
theorem runsPast_deg_iff (base : LmemAddr) (deg : BitVec 8) :
    runsPast base (deg.toNat + 1) = true ↔ 1023 < base.toNat + deg.toNat :=
  runsPast_iff (Nat.succ_pos _)

/-- Settles O15: inside LMEM PEVAL stages one register write; beyond it, it ends with an error code and no write. -/
theorem pevalAsSpecified : Obligations.PevalAsSpecified := by
  refine ⟨fun w => decode_of_match decode_peval (by decide), fun rd rx deg base s hin => ?_,
    fun rd rx deg base s hpast => ?_⟩
  · rw [exec_peval, if_neg (mt (runsPast_deg_iff base deg).1 (Nat.not_lt.2 hin)), State.finish_reg, State.loadRun]
  · rw [exec_peval, if_pos ((runsPast_deg_iff base deg).2 hpast), State.finish_error,
      s.complete_of_error (c := .addrRange) nofun]

end Sys2Proof.Machine
end

section
/-! PROOFS. Algebra over the field that the decoder's proofs use: cancellation, and the powers of a point. -/

namespace Sys2Proof.Machine

theorem gadd_left_comm (a b c : Elem) : gadd a (gadd b c) = gadd b (gadd a c) := by
  rw [← gadd_assoc, gadd_comm a b, gadd_assoc]

/-- Adding an element twice cancels: addition is subtraction (40_field_arith.md R140). -/
@[simp] theorem gadd_gadd_self (a b : Elem) : gadd a (gadd a b) = b := by
  rw [← gadd_assoc, gadd_self, zero_gadd]

theorem gadd_eq_iff_eq_gadd {a b c : Elem} : gadd a b = c ↔ b = gadd a c :=
  ⟨fun h => by rw [← h, gadd_gadd_self], fun h => by rw [h, gadd_gadd_self]⟩

theorem gadd_eq_zero_iff {a b : Elem} : gadd a b = 0#8 ↔ a = b := by
  rw [gadd_eq_iff_eq_gadd, gadd_zero, eq_comm]

theorem gmul_left_comm (a b c : Elem) : gmul a (gmul b c) = gmul b (gmul a c) := by
  rw [← gmul_assoc, gmul_comm a b, gmul_assoc]

theorem gmul_eq_zero_iff {a b : Elem} : gmul a b = 0#8 ↔ a = 0 ∨ b = 0 := by
  refine ⟨fun h => ?_, fun h => if_pos h⟩
  by_contra hne
  exact gmul_ne_zero (fun ha => hne (.inl ha)) (fun hb => hne (.inr hb)) h

theorem gmul_right_cancel {a b c : Elem} (hc : c ≠ 0) (h : gmul a c = gmul b c) : a = b := by
  have hdiff : gmul (gadd a b) c = 0#8 := by rw [gadd_gmul, h, gadd_self]
  exact gadd_eq_zero_iff.1 ((gmul_eq_zero_iff.1 hdiff).resolve_right hc)

@[simp] theorem gpow_zero (x : Elem) : gpow x 0 = 1#8 := rfl

theorem gpow_add (x : Elem) (m n : Nat) : gpow x (m + n) = gmul (gpow x m) (gpow x n) := by
  induction n with
  | zero => exact (gmul_one _).symm
  | succ n ih => rw [← Nat.add_assoc, gpow, gpow, ih, gmul_assoc]

/-- The highest coefficient's term stands apart from the value of the lower ones. -/
theorem horner_append_singleton (l : List Elem) (c x : Elem) :
    horner (l ++ [c]) x = gadd (gmul c (gpow x l.length)) (horner l x) := by
  induction l with
  | nil => simp
  | cons d l ih =>
    rw [List.cons_append, horner_cons, ih, horner_cons, List.length_cons, gpow, gadd_gmul, gmul_assoc, gadd_assoc]

/-- The same for a list with the highest coefficient first. -/
theorem horner_reverse_cons (c : Elem) (l : List Elem) (x : Elem) :
    horner (c :: l).reverse x = gadd (gmul c (gpow x l.length)) (horner l.reverse x) := by
  rw [List.reverse_cons, horner_append_singleton, List.length_reverse]

theorem horner_eq_zero {l : List Elem} (h : ∀ c ∈ l, c = 0#8) (x : Elem) : horner l x = 0#8 := by
  induction l with
  | nil => rfl
  | cons c l ih =>
    obtain ⟨hc, hl⟩ := List.forall_mem_cons.1 h
    rw [horner_cons, hc, ih hl, zero_gmul, gadd_zero]

@[simp] theorem horner_replicate_zero (n : Nat) (x : Elem) : horner (List.replicate n 0#8) x = 0#8 :=
  horner_eq_zero (fun _ => List.eq_of_mem_replicate) x

end Sys2Proof.Machine
end

section
/-! PROOFS. Division by a monic polynomial (42_decoder.md R213): its identity at every point, and that it takes apart exactly
what multiplication by the divisor builds. -/

namespace Sys2Proof.Machine

/-! ### One step of the division -/

@[simp] theorem addLeading_length (q : Elem) (rs es : List Elem) : (addLeading q rs es).length = rs.length := by
  induction rs generalizing es with
  | nil => cases es <;> rfl
  | cons r rs ih =>
    cases es with
    | nil => rfl
    | cons e es => rw [addLeading, List.length_cons, ih, List.length_cons]

/-- Adding the same multiple twice cancels. -/
@[simp] theorem addLeading_addLeading (q : Elem) (rs es : List Elem) :
    addLeading q (addLeading q rs es) es = rs := by
  induction rs generalizing es with
  | nil => cases es <;> rfl
  | cons r rs ih =>
    cases es with
    | nil => rfl
    | cons e es => rw [addLeading, addLeading, ih, gadd_assoc, gadd_self, gadd_zero]

/-- Highest coefficient first, `q·e` goes in `n` places above the lowest coefficient. -/
theorem horner_addLeading (q x : Elem) (n : Nat) {rs es : List Elem} (h : rs.length = n + es.length) :
    horner (addLeading q rs es).reverse x =
      gadd (horner rs.reverse x) (gmul (gmul q (gpow x n)) (horner es.reverse x)) := by
  induction rs generalizing es with
  | nil =>
    obtain rfl : es = [] := List.eq_nil_of_length_eq_zero (by simp at h; omega)
    simp [addLeading]
  | cons r rs ih =>
    cases es with
    | nil => simp [addLeading]
    | cons e es =>
      have hlen : rs.length = n + es.length := by simp at h; omega
      rw [addLeading, horner_reverse_cons, horner_reverse_cons, horner_reverse_cons, ih hlen, addLeading_length, hlen,
        gpow_add, gmul_gadd, gadd_gmul]
      simp only [gmul_assoc, gmul_left_comm, gadd_assoc, gadd_left_comm]

/-! ### Long division, highest coefficient first -/

theorem divMonic_length {e : List Elem} {n : Nat} {q : List Elem} (h : q.length = n + e.length) :
    (divMonic e n q).1.length = n ∧ (divMonic e n q).2.length = e.length := by
  induction n generalizing q with
  | zero => exact ⟨rfl, by simpa [divMonic] using h⟩
  | succ n ih =>
    cases q with
    | nil => simp at h; omega
    | cons c cs =>
      obtain ⟨hquot, hrem⟩ := ih (q := addLeading c cs e) (by simp at h ⊢; omega)
      exact ⟨congrArg (· + 1) hquot, hrem⟩

/-- The division identity at a point, for the divisor with the coefficients 1, then `e`. -/
theorem horner_divMonic {e : List Elem} {n : Nat} {q : List Elem} (h : q.length = n + e.length) (x : Elem) :
    horner q.reverse x =
      gadd (gmul (horner (divMonic e n q).1.reverse x) (horner (1#8 :: e).reverse x))
        (horner (divMonic e n q).2.reverse x) := by
  induction n generalizing q with
  | zero => simp [divMonic]
  | succ n ih =>
    cases q with
    | nil => simp at h; omega
    | cons c cs =>
      have hlen : cs.length = n + e.length := by simp at h; omega
      have hlen' : (addLeading c cs e).length = n + e.length := by rw [addLeading_length, hlen]
      have hquot : (divMonic e n (addLeading c cs e)).1.length = n := (divMonic_length hlen').1
      -- the step's own identity: adding `c·e` into the rest takes `c` times the divisor away
      have hstep := (horner_addLeading c x n hlen).symm.trans (ih hlen')
      rw [gadd_comm, gadd_eq_iff_eq_gadd] at hstep
      rw [divMonic, horner_reverse_cons, horner_reverse_cons c, hquot, hstep, hlen, gadd_gmul, horner_reverse_cons 1#8,
        gpow_add]
      simp only [gmul_gadd, one_gmul, gadd_assoc, gmul_assoc]

/-- The quotient and the remainder determine the dividend. -/
theorem divMonic_injective {e : List Elem} {n : Nat} {q r : List Elem} (hq : q.length = n + e.length)
    (hr : r.length = n + e.length) (h : divMonic e n q = divMonic e n r) : q = r := by
  induction n generalizing q r with
  | zero => exact congrArg Prod.snd h
  | succ n ih =>
    cases q with
    | nil => simp at hq; omega
    | cons c cs =>
      cases r with
      | nil => simp at hr; omega
      | cons d ds =>
        obtain ⟨⟨rfl, hquot⟩, hrem⟩ : (c = d ∧ _) ∧ _ := by simpa [divMonic] using h
        have hadd : addLeading c cs e = addLeading c ds e :=
          ih (by simp at hq ⊢; omega) (by simp at hr ⊢; omega) (Prod.ext hquot hrem)
        rw [← addLeading_addLeading c cs e, hadd, addLeading_addLeading]

/-- The product with the monic polynomial whose lower coefficients are `e`, highest coefficient first: division backwards. -/
def mulMonic (e : List Elem) : List Elem → List Elem
  | [] => List.replicate e.length 0
  | p :: ps => p :: addLeading p (mulMonic e ps) e

@[simp] theorem mulMonic_length (e ps : List Elem) : (mulMonic e ps).length = ps.length + e.length := by
  induction ps with
  | nil => simp [mulMonic]
  | cons p ps ih => simp [mulMonic, ih]; omega

theorem divMonic_mulMonic (e ps : List Elem) :
    divMonic e ps.length (mulMonic e ps) = (ps, List.replicate e.length 0) := by
  induction ps with
  | nil => rfl
  | cons p ps ih => simp only [mulMonic, List.length_cons, divMonic, addLeading_addLeading, ih]

/-! ### PolyDivMod and the product, constant term first -/

/-- R213: Q = P·E + R at every point, with quotient and remainder of the lengths the rule gives. -/
theorem polyDivMod_spec {n : Nat} {q eps : List Elem} (h : q.length = eps.length + n) :
    (polyDivMod n q eps).1.length = n ∧ (polyDivMod n q eps).2.length = eps.length ∧
      ∀ x, horner q x =
        gadd (gmul (horner (polyDivMod n q eps).1 x) (horner (eps ++ [1]) x)) (horner (polyDivMod n q eps).2 x) := by
  have hlen : q.reverse.length = n + eps.reverse.length := by simp [h, Nat.add_comm]
  obtain ⟨hquot, hrem⟩ := divMonic_length hlen
  refine ⟨by simpa [polyDivMod] using hquot, by simpa [polyDivMod] using hrem, fun x => ?_⟩
  simpa [polyDivMod] using horner_divMonic hlen x

theorem polyDivMod_injective {n : Nat} {q r eps : List Elem} (hq : q.length = eps.length + n)
    (hr : r.length = eps.length + n) (h : polyDivMod n q eps = polyDivMod n r eps) : q = r := by
  obtain ⟨hquot, hrem⟩ := Prod.ext_iff.1 h
  exact List.reverse_injective (divMonic_injective (by simp [hq, Nat.add_comm]) (by simp [hr, Nat.add_comm])
    (Prod.ext (List.reverse_injective hquot) (List.reverse_injective hrem)))

/-- The product of `p` with the monic polynomial `eps`, 1, constant term first. -/
def mulByMonic (p eps : List Elem) : List Elem := (mulMonic eps.reverse p.reverse).reverse

@[simp] theorem mulByMonic_length (p eps : List Elem) : (mulByMonic p eps).length = eps.length + p.length := by
  simp [mulByMonic, Nat.add_comm]

/-- Dividing a product by the factor gives the other one, and no remainder. -/
theorem polyDivMod_mulByMonic (p eps : List Elem) :
    polyDivMod p.length (mulByMonic p eps) eps = (p, List.replicate eps.length 0) := by
  have h := divMonic_mulMonic eps.reverse p.reverse
  rw [List.length_reverse] at h
  simp [polyDivMod, mulByMonic, h]

theorem horner_mulByMonic (p eps : List Elem) (x : Elem) :
    horner (mulByMonic p eps) x = gmul (horner p x) (horner (eps ++ [1]) x) := by
  obtain ⟨-, -, hdiv⟩ := polyDivMod_spec (n := p.length) (mulByMonic_length p eps)
  rw [hdiv x, polyDivMod_mulByMonic]
  simp

/-- A product of monic polynomials is monic. -/
theorem exists_mulByMonic_monic (p eps : List Elem) :
    ∃ l, l.length = eps.length + p.length ∧ mulByMonic (p ++ [1]) eps = l ++ [1] := by
  refine ⟨(addLeading 1 (mulMonic eps.reverse p.reverse) eps.reverse).reverse, by simp [Nat.add_comm], ?_⟩
  simp [mulByMonic, mulMonic]

end Sys2Proof.Machine
end

section
/-! PROOFS. The solver of linear systems (42_decoder.md R203): what it answers solves the system, and it answers whenever a
solution exists. -/

namespace Sys2Proof.Machine

/-! ### The sum of products -/

@[simp] theorem dot_nil (v : List Elem) : dot [] v = 0#8 := by cases v <;> rfl

@[simp] theorem dot_cons (a b : Elem) (as bs : List Elem) : dot (a :: as) (b :: bs) = gadd (gmul a b) (dot as bs) := rfl

theorem dot_append {as v : List Elem} (h : as.length = v.length) (bs w : List Elem) :
    dot (as ++ bs) (v ++ w) = gadd (dot as v) (dot bs w) := by
  induction as generalizing v with
  | nil =>
    obtain rfl : v = [] := List.eq_nil_of_length_eq_zero h.symm
    simp
  | cons a as ih =>
    cases v with
    | nil => simp at h
    | cons b v => simp [ih (v := v) (by simpa using h), gadd_assoc]

theorem dot_map_gmul (c : Elem) (as v : List Elem) : dot (as.map (gmul c)) v = gmul c (dot as v) := by
  induction as generalizing v with
  | nil => simp
  | cons a as ih =>
    cases v with
    | nil => simp [dot]
    | cons b v => simp [ih, gmul_gadd, gmul_assoc]

/-- The sum of products with a row, to which a multiple of another row has been added. -/
theorem dot_zipWith_gadd (c : Elem) {as bs : List Elem} (h : as.length = bs.length) (v : List Elem) :
    dot (List.zipWith (fun a b => gadd a (gmul c b)) as bs) v = gadd (dot as v) (gmul c (dot bs v)) := by
  induction as generalizing bs v with
  | nil =>
    obtain rfl : bs = [] := List.eq_nil_of_length_eq_zero h.symm
    simp
  | cons a as ih =>
    cases bs with
    | nil => simp at h
    | cons b bs =>
      cases v with
      | nil => simp [dot]
      | cons w v =>
        simp only [List.zipWith_cons_cons, dot_cons, ih (bs := bs) (by simpa using h), gadd_gmul, gmul_gadd, gmul_assoc,
          gadd_assoc, gadd_left_comm]

/-! ### Equations -/

theorem Equation.holds_iff (q : Equation) (v : List Elem) : q.holds v = true ↔ dot q.coeffs v = q.rhs := by
  simp [Equation.holds]

/-- An equation in n + 1 unknowns, with the first unknown's term set apart. -/
theorem Equation.holds_cons_iff {q : Equation} {n : Nat} (hq : q.coeffs.length = n + 1) (a : Elem) (v : List Elem) :
    q.holds (a :: v) = true ↔ gadd (gmul q.lead a) (dot q.coeffs.tail v) = q.rhs := by
  obtain ⟨_ | ⟨c, cs⟩, r⟩ := q
  · simp at hq
  · exact Equation.holds_iff _ _

/-- Where the first unknown does not occur, its value is free. -/
theorem Equation.holds_dropLead_iff {q : Equation} {n : Nat} (hq : q.coeffs.length = n + 1) (hlead : q.lead = 0#8)
    (a : Elem) (v : List Elem) : q.dropLead.holds v = true ↔ q.holds (a :: v) = true := by
  rw [Equation.holds_cons_iff hq, Equation.holds_iff, hlead, zero_gmul, zero_gadd]
  rfl

/-- Eliminating the first unknown with `p` substitutes for it the value that `p` gives it. -/
theorem Equation.holds_eliminate_iff {p q : Equation} {n : Nat} (hp : p.coeffs.length = n + 1)
    (hq : q.coeffs.length = n + 1) (v : List Elem) :
    (p.eliminate q).dropLead.holds v = true ↔ q.holds (gadd p.rhs (dot p.coeffs.tail v) :: v) = true := by
  have hcoeffs : (p.eliminate q).dropLead.coeffs =
      List.zipWith (fun a b => gadd a (gmul q.lead b)) q.coeffs.tail p.coeffs.tail := by
    simp [Equation.dropLead, Equation.eliminate, List.tail_zipWith]
  have hrhs : (p.eliminate q).dropLead.rhs = gadd q.rhs (gmul q.lead p.rhs) := rfl
  rw [Equation.holds_cons_iff hq, Equation.holds_iff, hcoeffs, hrhs, dot_zipWith_gadd _ (by simp [hp, hq]), gmul_gadd,
    gadd_comm q.rhs, ← gadd_eq_iff_eq_gadd]
  simp only [gadd_left_comm, gadd_comm]

theorem Equation.dropLead_length {q : Equation} {n : Nat} (hq : q.coeffs.length = n + 1) :
    q.dropLead.coeffs.length = n := by
  simp [Equation.dropLead, hq]

theorem Equation.eliminate_length {p q : Equation} (h : p.coeffs.length = q.coeffs.length) :
    (p.eliminate q).coeffs.length = q.coeffs.length := by
  simp [Equation.eliminate, h]

theorem Equation.holds_scale {q : Equation} {v : List Elem} (h : q.holds v = true) (c : Elem) :
    (q.scale c).holds v = true := by
  rw [Equation.holds_iff] at h ⊢
  rw [Equation.scale, dot_map_gmul, h]

theorem Equation.lead_scale (c : Elem) (q : Equation) : (q.scale c).lead = gmul c q.lead := by
  obtain ⟨_ | ⟨a, as⟩, r⟩ := q
  · exact (gmul_zero c).symm
  · rfl

/-! ### The pivot -/

/-- There is no pivot exactly where the first unknown occurs in no equation. -/
theorem pivotOf_eq_none_iff {eqs : List Equation} : pivotOf eqs = none ↔ ∀ q ∈ eqs, q.lead = 0#8 := by
  simp [pivotOf, ginv]

/-- A pivot is a multiple of an equation of the system, with the first coefficient 1. -/
theorem pivotOf_eq_some {eqs : List Equation} {p : Equation} (h : pivotOf eqs = some p) :
    p.lead = 1#8 ∧ ∃ q ∈ eqs, ∃ c, p = q.scale c := by
  obtain ⟨q, hq, hp⟩ := List.exists_of_findSome?_eq_some h
  obtain ⟨c, hc, rfl⟩ := Option.map_eq_some_iff.1 hp
  refine ⟨?_, q, hq, c, rfl⟩
  have hlead : q.lead ≠ 0 := fun h0 => by simp [h0] at hc
  obtain rfl : alog (255 - log q.lead) = c := by simpa [ginv_of_ne_zero hlead] using hc
  rw [Equation.lead_scale, gmul_comm]
  exact gmul_alog_sub hlead

theorem pivotOf_length {eqs : List Equation} {n : Nat} (hn : ∀ q ∈ eqs, q.coeffs.length = n) {p : Equation}
    (h : pivotOf eqs = some p) : p.coeffs.length = n := by
  obtain ⟨-, q, hq, c, rfl⟩ := pivotOf_eq_some h
  simpa [Equation.scale] using hn q hq

/-- A solution of the system gives the first unknown the value that the pivot gives it. -/
theorem head_eq_of_pivotOf {eqs : List Equation} {n : Nat} (hn : ∀ q ∈ eqs, q.coeffs.length = n + 1) {p : Equation}
    (h : pivotOf eqs = some p) {a : Elem} {v : List Elem} (hv : ∀ q ∈ eqs, q.holds (a :: v) = true) :
    a = gadd p.rhs (dot p.coeffs.tail v) := by
  have hlen := pivotOf_length hn h
  obtain ⟨hlead, q, hq, c, hp⟩ := pivotOf_eq_some h
  have hpv : p.holds (a :: v) = true := hp ▸ Equation.holds_scale (hv q hq) c
  rw [Equation.holds_cons_iff hlen, hlead, one_gmul, gadd_comm, gadd_eq_iff_eq_gadd] at hpv
  rw [hpv, gadd_comm]

/-! ### The solver -/

/-- The system that the solver solves for the other unknowns. -/
theorem solve_succ_of_none {n : Nat} {eqs : List Equation} (h : pivotOf eqs = none) :
    solve (n + 1) eqs = (solve n (eqs.map Equation.dropLead)).map fun v => 0 :: v := by
  rw [solve, h]

theorem solve_succ_of_some {n : Nat} {eqs : List Equation} {p : Equation} (h : pivotOf eqs = some p) :
    solve (n + 1) eqs = (solve n (eqs.map fun q => (p.eliminate q).dropLead)).map fun v =>
      gadd p.rhs (dot p.coeffs.tail v) :: v := by
  rw [solve, h]

theorem dropLead_lengths {eqs : List Equation} {n : Nat} (hn : ∀ q ∈ eqs, q.coeffs.length = n + 1) :
    ∀ q ∈ eqs.map Equation.dropLead, q.coeffs.length = n :=
  List.forall_mem_map.2 fun q hq => Equation.dropLead_length (hn q hq)

theorem eliminate_lengths {eqs : List Equation} {n : Nat} (hn : ∀ q ∈ eqs, q.coeffs.length = n + 1) {p : Equation}
    (h : pivotOf eqs = some p) : ∀ q ∈ eqs.map fun q => (p.eliminate q).dropLead, q.coeffs.length = n :=
  List.forall_mem_map.2 fun q hq => Equation.dropLead_length <| by
    rw [Equation.eliminate_length ((pivotOf_length hn h).trans (hn q hq).symm), hn q hq]

/-- What the solver answers solves the system. -/
theorem solve_sound {n : Nat} {eqs : List Equation} (hn : ∀ q ∈ eqs, q.coeffs.length = n) {v : List Elem}
    (h : solve n eqs = some v) : v.length = n ∧ ∀ q ∈ eqs, q.holds v = true := by
  induction n generalizing eqs v with
  | zero =>
    obtain ⟨hzero, rfl⟩ : (∀ q ∈ eqs, q.rhs = 0#8) ∧ [] = v := by simpa [solve] using h
    refine ⟨rfl, fun q hq => ?_⟩
    rw [Equation.holds_iff, List.eq_nil_of_length_eq_zero (hn q hq), hzero q hq, dot_nil]
  | succ n ih =>
    cases hp : pivotOf eqs with
    | none =>
      rw [solve_succ_of_none hp] at h
      obtain ⟨w, hw, rfl⟩ := Option.map_eq_some_iff.1 h
      obtain ⟨hlen, hall⟩ := ih (dropLead_lengths hn) hw
      refine ⟨congrArg (· + 1) hlen, fun q hq => ?_⟩
      exact (Equation.holds_dropLead_iff (hn q hq) (pivotOf_eq_none_iff.1 hp q hq) 0 w).1 (List.forall_mem_map.1 hall q hq)
    | some p =>
      rw [solve_succ_of_some hp] at h
      obtain ⟨w, hw, rfl⟩ := Option.map_eq_some_iff.1 h
      obtain ⟨hlen, hall⟩ := ih (eliminate_lengths hn hp) hw
      refine ⟨congrArg (· + 1) hlen, fun q hq => ?_⟩
      exact (Equation.holds_eliminate_iff (pivotOf_length hn hp) (hn q hq) w).1 (List.forall_mem_map.1 hall q hq)

/-- A system with a solution is never answered `none`. -/
theorem exists_solve_of_holds {n : Nat} {eqs : List Equation} (hn : ∀ q ∈ eqs, q.coeffs.length = n) {v : List Elem}
    (hlen : v.length = n) (hv : ∀ q ∈ eqs, q.holds v = true) : ∃ w, solve n eqs = some w := by
  induction n generalizing eqs v with
  | zero =>
    refine ⟨[], if_pos (List.all_eq_true.2 fun q hq => ?_)⟩
    have hrhs := (Equation.holds_iff q v).1 (hv q hq)
    rw [List.eq_nil_of_length_eq_zero (hn q hq), dot_nil] at hrhs
    simp [← hrhs]
  | succ n ih =>
    cases v with
    | nil => simp at hlen
    | cons a v =>
      have hlen : v.length = n := by simpa using hlen
      cases hp : pivotOf eqs with
      | none =>
        obtain ⟨w, hw⟩ := ih (dropLead_lengths hn) hlen <| List.forall_mem_map.2 fun q hq =>
          (Equation.holds_dropLead_iff (hn q hq) (pivotOf_eq_none_iff.1 hp q hq) a v).2 (hv q hq)
        exact ⟨0 :: w, by rw [solve_succ_of_none hp, hw]; rfl⟩
      | some p =>
        have ha := head_eq_of_pivotOf hn hp hv
        obtain ⟨w, hw⟩ := ih (eliminate_lengths hn hp) hlen <| List.forall_mem_map.2 fun q hq =>
          (Equation.holds_eliminate_iff (pivotOf_length hn hp) (hn q hq) v).2 (ha ▸ hv q hq)
        exact ⟨_, by rw [solve_succ_of_some hp, hw]; rfl⟩

end Sys2Proof.Machine
end

section
/-! PROOFS. Polynomials given by points: one of n coefficients is determined by its values at n points, and any values at n
points are those of one (42_decoder.md R200). -/

namespace Sys2Proof.Machine

/-- Two polynomials with n coefficients that agree at n points are equal: dividing both by z - a, for one of the points a,
leaves the same remainder, and quotients that agree at the other points. -/
theorem eq_of_horner_eq {xs : List Elem} (hxs : xs.Nodup) {p q : List Elem} (hpq : p.length = q.length)
    (hle : p.length ≤ xs.length) (h : ∀ x ∈ xs, horner p x = horner q x) : p = q := by
  induction xs generalizing p q with
  | nil =>
    obtain rfl : p = [] := List.eq_nil_of_length_eq_zero (by simpa using hle)
    exact (List.eq_nil_of_length_eq_zero hpq.symm).symm
  | cons a xs ih =>
    obtain ⟨ha, hxs⟩ := List.nodup_cons.1 hxs
    rcases hn : p.length with _ | n
    · rw [List.eq_nil_of_length_eq_zero hn, List.eq_nil_of_length_eq_zero (hpq.symm.trans hn)]
    have hp : p.length = [a].length + n := by simp [hn, Nat.add_comm]
    have hq : q.length = [a].length + n := hpq.symm.trans hp
    obtain ⟨hpquot, hprem, hpdiv⟩ := polyDivMod_spec hp
    obtain ⟨hqquot, hqrem, hqdiv⟩ := polyDivMod_spec hq
    obtain ⟨r, hr⟩ := List.length_eq_one_iff.1 hprem
    obtain ⟨t, ht⟩ := List.length_eq_one_iff.1 hqrem
    have hlinear : ∀ x, horner ([a] ++ [1]) x = gadd x a := fun x => by simp
    simp only [hr, ht, hlinear, horner_cons, horner_nil, zero_gmul, zero_gadd] at hpdiv hqdiv
    have hrt : r = t := by simpa [hpdiv, hqdiv] using h a List.mem_cons_self
    have hquot : (polyDivMod n p [a]).1 = (polyDivMod n q [a]).1 := by
      refine ih hxs (hpquot.trans hqquot.symm) (by simp [hn] at hle; omega) fun x hx => ?_
      have hxa : gadd x a ≠ 0 := fun h0 => ha (gadd_eq_zero_iff.1 h0 ▸ hx)
      have hval := h x (List.mem_cons_of_mem _ hx)
      rw [hpdiv, hqdiv, hrt, gadd_comm, gadd_comm _ t] at hval
      exact gmul_right_cancel hxa (by simpa using congrArg (gadd t) hval)
    exact polyDivMod_injective hp hq (Prod.ext hquot (by rw [hr, ht, hrt]))

/-- A monic polynomial of degree e has at most e roots. -/
theorem length_le_of_monic_roots {xs : List Elem} (hxs : xs.Nodup) {eps : List Elem}
    (h : ∀ x ∈ xs, horner (eps ++ [1]) x = 0) : xs.length ≤ eps.length := by
  by_contra hlt
  have hzero : eps ++ [1] = List.replicate (eps.length + 1) 0#8 :=
    eq_of_horner_eq hxs (by simp) (by simp; omega) fun x hx => (h x hx).trans (horner_replicate_zero _ x).symm
  have hone : (1 : Elem) ∈ List.replicate (eps.length + 1) 0#8 := hzero ▸ by simp
  exact absurd (List.eq_of_mem_replicate hone) (by decide)

/-- Any e points are roots of a monic polynomial of degree e, and so are fewer. -/
theorem exists_monic_roots (xs : List Elem) {e : Nat} (h : xs.length ≤ e) :
    ∃ eps : List Elem, eps.length = e ∧ ∀ x ∈ xs, horner (eps ++ [1]) x = 0 := by
  induction xs generalizing e with
  | nil => exact ⟨List.replicate e 0, by simp, by simp⟩
  | cons a xs ih =>
    obtain ⟨eps, heps, hroots⟩ := ih (e := e - 1) (by simp at h; omega)
    obtain ⟨l, hl, hmul⟩ := exists_mulByMonic_monic eps [a]
    refine ⟨l, by simp at h hl; omega, List.forall_mem_cons.2 ⟨?_, fun x hx => ?_⟩⟩
    · rw [← hmul, horner_mulByMonic]
      simp
    · rw [← hmul, horner_mulByMonic, hroots x hx]
      simp

/-- The values at n points, as a map on lists of n elements. -/
def valuesAt (xs : List Elem) (p : List.Vector Elem xs.length) : List.Vector Elem xs.length :=
  ⟨xs.map (horner p.1), List.length_map _⟩

theorem valuesAt_injective {xs : List Elem} (hxs : xs.Nodup) : Function.Injective (valuesAt xs) := fun p q h =>
  Subtype.ext (eq_of_horner_eq hxs (p.2.trans q.2.symm) p.2.le (List.map_inj_left.1 (congrArg Subtype.val h)))

/-- Any n values at n points are those of a polynomial with n coefficients: there are as many lists of values as of
coefficients, and different coefficients give different values. -/
theorem exists_interpolation {xs ys : List Elem} (hxs : xs.Nodup) (hlen : ys.length = xs.length) :
    ∃ p : List Elem, p.length = xs.length ∧ xs.map (horner p) = ys := by
  obtain ⟨p, hp⟩ := Finite.injective_iff_surjective.1 (valuesAt_injective hxs) ⟨ys, hlen⟩
  exact ⟨p.1, p.2, congrArg Subtype.val hp⟩

end Sys2Proof.Machine
end

section
/-! PROOFS. The common checks of the decodes, and the two ways a decode ends (42_decoder.md R191 to R193, 60_exceptions.md
R264). -/

namespace Sys2Proof.Machine

/-! ### The checks (R192) -/

theorem mem_loadRun_iff (s : State) (base : LmemAddr) (n : Nat) (v : Elem) :
    v ∈ s.loadRun base n ↔ ∃ i < n, s.loadByte (base.toNat + i) = v := by
  simp [State.loadRun]

/-- The bytes of a run are distinct exactly when none repeats an earlier one. -/
theorem nodup_loadRun_iff (s : State) (base : LmemAddr) (n : Nat) :
    (s.loadRun base n).Nodup ↔
      ∀ i j, i < j → j < n → s.loadByte (base.toNat + i) ≠ s.loadByte (base.toNat + j) := by
  rw [List.Nodup, List.pairwise_iff_getElem]
  simp only [State.loadRun_length, State.loadRun_getElem]
  exact ⟨fun h i j hij hj => h i j (hij.trans hj) hj hij, fun h i j _ hj hij => h i j hij hj⟩

/-- A run ends beyond LMEM: the check's own arithmetic. -/
theorem runsPast_eq_true_iff (base : LmemAddr) (n : Nat) : runsPast base n = true ↔ base.toNat + n - 1 > 1023 := by
  simp [runsPast, Config.lmemSize]

/-- One of the three lists of a decode ends beyond LMEM. -/
abbrev DecodeRunsPast (p : Params) : Prop :=
  p.xbase.toNat + p.m.toNat - 1 > 1023 ∨ p.ybase.toNat + p.m.toNat - 1 > 1023 ∨ p.obase.toNat + p.k.toNat - 1 > 1023

theorem decodeRunsPast_iff (p : Params) :
    (runsPast p.xbase p.m.toNat || runsPast p.ybase p.m.toNat || runsPast p.obase p.k.toNat) = true ↔
      DecodeRunsPast p := by
  simp only [Bool.or_eq_true, runsPast_eq_true_iff, or_assoc]

/-- The checks as one chain of tests, in terms of the operands and the x-values. -/
theorem State.decodeCommon_eq (s : State) :
    s.decodeCommon =
      if s.operands.k.toNat = 0 then .error .param
      else if s.operands.m.toNat < s.operands.k.toNat then .error .insufficient
      else if s.operands.f.toNat + s.operands.k.toNat - 1 > 255 then .error .param
      else if DecodeRunsPast s.operands then .error .addrRange
      else if 0 ∈ s.loadRun s.operands.xbase s.operands.m.toNat then .error .param
      else if ¬ (s.loadRun s.operands.xbase s.operands.m.toNat).Nodup then .error .param
      else .ok { x := s.loadRun s.operands.xbase s.operands.m.toNat, y := s.loadRun s.operands.ybase s.operands.m.toNat,
                 k := s.operands.k.toNat, f := s.operands.f.toNat, obase := s.operands.obase } := by
  simp only [State.decodeCommon, Config.maxElem, decodeRunsPast_iff, List.contains_iff_mem, Bool.not_eq_true',
    ← pairwiseDistinct_iff, Bool.not_eq_true]

/-! ### A failed check -/

/-- The first check that fails ends either decode with its code, and nothing is written. -/
theorem exec_of_decodeCommon_error {s : State} {c : ResultCode} (h : s.decodeCommon = .error c) {i : Instr}
    (hi : i ∈ [Instr.dece, Instr.decbw]) : exec i s = .next { s with
      lerr := c, ferr := if s.ferr = .ok then c else s.ferr, phase := .idle, staged := [], draws := s.draws + 1 } := by
  have hc : c ≠ .ok := by rcases State.decodeCommon_error h with rfl | rfl | rfl <;> nofun
  have hbody : exec i s = .next (s.finish (.error c)) := by
    rcases List.mem_pair.1 hi with rfl | rfl
    · rw [exec_dece, deceBody, h]
    · rw [exec_decbw, decbwBody, h]
  rw [hbody, State.finish_error, s.complete_of_error hc]

/-- Settles O19: the chain of checks, one clause per test, and the end of a failed one. -/
theorem decodeChecksInOrder : Obligations.DecodeChecksInOrder := by
  intro s p m k X Y past
  have hzero := mem_loadRun_iff s p.xbase m 0
  have hdist := nodup_loadRun_iff s p.xbase m
  have hpast : DecodeRunsPast s.operands ↔ past := Iff.rfl
  refine ⟨fun hk => ?_, fun hk hm => ?_, fun hk hm hf => ?_, fun hk hm hf hp => ?_, fun hk hm hf hp hx => ?_,
    fun hk hm hf hp hne hd => ?_, fun c hc i hi => exec_of_decodeCommon_error hc hi⟩
  · rw [s.decodeCommon_eq, if_pos hk]
  · rw [s.decodeCommon_eq, if_neg hk.ne', if_pos hm]
  · rw [s.decodeCommon_eq, if_neg hk.ne', if_neg hm.not_gt, if_pos hf]
  · rw [s.decodeCommon_eq, if_neg hk.ne', if_neg hm.not_gt, if_neg hf.not_gt, if_pos (hpast.2 hp)]
  · rw [s.decodeCommon_eq, if_neg hk.ne', if_neg hm.not_gt, if_neg hf.not_gt, if_neg (mt hpast.1 hp)]
    rcases hx with hx | ⟨i, j, hij, hj, heq⟩
    · rw [if_pos (hzero.2 hx)]
    · rw [if_pos fun hnodup => hdist.1 hnodup i j hij hj heq, ite_self]
  · have hnonzero : 0 ∉ s.loadRun p.xbase m := fun hx => (hzero.1 hx).elim fun i ⟨hi, h0⟩ => hne i hi h0
    rw [s.decodeCommon_eq, if_neg hk.ne', if_neg hm.not_gt, if_neg hf.not_gt, if_neg (mt hpast.1 hp), if_neg hnonzero,
      if_neg (not_not.2 (hdist.2 hd))]
    rfl

/-! ### The outputs (R193) -/

/-- A decode that ends with OK writes the values of its polynomial to its output bytes, and nothing else. -/
theorem finish_outputs (s : State) {d : DecodeInput} (p : List Elem) (h : d.obase.toNat + d.k ≤ Config.lmemSize) :
    ∃ mem : Memory,
      s.finish (.ok (d.outputs p)) = { s with
        lmem := mem, lerr := .ok, phase := .idle, staged := [], draws := s.draws + 1 } ∧
      (∀ j < d.k, Memory.read (d.obase.toNat + j) mem = some (horner p (BitVec.ofNat 8 (d.f + j)))) ∧
      ∀ a, (∀ j < d.k, a ≠ d.obase.toNat + j) → Memory.read a mem = Memory.read a s.lmem := by
  have hread := read_foldl_runWrites d.obase.toNat d.k (fun j => horner p (BitVec.ofNat 8 (d.f + j)))
    (s.stage (d.outputs p)) h
  refine ⟨(s.stage (d.outputs p)).commit.lmem, ?_, fun j hj => ?_, fun a ha => ?_⟩
  · have hg : (s.stage (d.outputs p)).commit.g = s.g := foldl_runWrites_g ..
    rw [State.finish_ok, State.complete_of_ok, hg]
    rfl
  · exact (hread _).trans (by rw [if_pos (by omega), Nat.add_sub_cancel_left])
  · refine (hread a).trans (if_neg fun hin => ?_)
    exact ha (a - d.obase.toNat) (by omega) (by omega)

end Sys2Proof.Machine
end

section
/-! PROOFS. DECE: the erasure polynomial exists and is the only one (42_decoder.md R200, R201), and its values are written. -/

namespace Sys2Proof.Machine

/-! ### The Vandermonde system (R201) -/

@[simp] theorem powers_length (x : Elem) (n : Nat) : (powers x n).length = n := by
  have hfrom : ∀ acc, (powersFrom acc x n).length = n := by
    induction n with
    | zero => exact fun _ => rfl
    | succ n ih => exact fun acc => congrArg (· + 1) (ih (gmul acc x))
  exact hfrom 1

theorem dot_powersFrom (acc x : Elem) (p : List Elem) : dot (powersFrom acc x p.length) p = gmul acc (horner p x) := by
  induction p generalizing acc with
  | nil => simp [powersFrom]
  | cons c p ih =>
    rw [List.length_cons, powersFrom, dot_cons, ih, horner_cons, gmul_gadd, gadd_comm, gmul_comm (horner p x), gmul_assoc]

/-- The sum of products of a row of powers with the coefficients is the polynomial's value. -/
theorem dot_powers {p : List Elem} {n : Nat} (h : p.length = n) (x : Elem) : dot (powers x n) p = horner p x := by
  rw [← h, powers, dot_powersFrom]
  exact one_gmul _

theorem vandermondeRow_holds_iff {p : List Elem} {k : Nat} (h : p.length = k) (x y : Elem) :
    (vandermondeRow k x y).holds p = true ↔ horner p x = y := by
  rw [Equation.holds_iff, vandermondeRow, dot_powers h]

/-- The coefficients solve the system exactly when the polynomial goes through the points. -/
theorem vandermonde_holds_iff {p : List Elem} {k : Nat} (h : p.length = k) {xs ys : List Elem}
    (hlen : ys.length = xs.length) :
    (∀ r ∈ List.zipWith (vandermondeRow k) xs ys, r.holds p = true) ↔ xs.map (horner p) = ys := by
  induction xs generalizing ys with
  | nil => simp [List.eq_nil_of_length_eq_zero hlen]
  | cons x xs ih =>
    cases ys with
    | nil => simp at hlen
    | cons y ys =>
      rw [List.zipWith_cons_cons, List.forall_mem_cons, vandermondeRow_holds_iff h, ih (by simpa using hlen),
        List.map_cons, List.cons.injEq]

/-- Through k distinct points the erasure polynomial goes. -/
theorem erasurePoly_spec {xs ys : List Elem} (hxs : xs.Nodup) (hlen : ys.length = xs.length) :
    ∃ p : List Elem, erasurePoly xs ys xs.length = some p ∧ p.length = xs.length ∧ xs.map (horner p) = ys := by
  have hrows : ∀ r ∈ List.zipWith (vandermondeRow xs.length) xs ys, r.coeffs.length = xs.length := by
    rw [← List.map_uncurry_zip_eq_zipWith]
    exact List.forall_mem_map.2 fun pt _ => powers_length pt.1 _
  obtain ⟨q, hq, hthrough⟩ := exists_interpolation hxs hlen
  obtain ⟨p, hp⟩ := exists_solve_of_holds hrows hq ((vandermonde_holds_iff hq hlen).2 hthrough)
  obtain ⟨hplen, hsol⟩ := solve_sound hrows hp
  exact ⟨p, hp, hplen, (vandermonde_holds_iff hplen hlen).1 hsol⟩

/-! ### The first K points (R204) -/

/-- The values at the first k points, index by index. -/
theorem map_horner_take_iff {xs ys : List Elem} {k : Nat} (hk : k ≤ xs.length) (hlen : ys.length = xs.length)
    (p : List Elem) :
    (xs.take k).map (horner p) = ys.take k ↔ ∀ i < k, horner p (xs.getD i 0) = ys.getD i 0 := by
  rw [List.ext_getElem_iff]
  simp only [List.length_map, List.length_take, List.getElem_map, List.getElem_take, hlen, true_and]
  refine ⟨fun h i hi => ?_, fun h i hi _ => ?_⟩
  · rw [List.getD_eq_getElem _ _ (by omega), List.getD_eq_getElem _ _ (by omega)]
    exact h i (by omega) (by omega)
  · rw [← List.getD_eq_getElem _ 0, ← List.getD_eq_getElem _ 0]
    exact h i (by omega)

theorem exec_dece_of_erasurePoly {s : State} {d : DecodeInput} (hd : s.decodeCommon = .ok d) {p : List Elem}
    (hp : erasurePoly (d.x.take d.k) (d.y.take d.k) d.k = some p) :
    exec .dece s = .next (s.finish (.ok (d.outputs p))) := by
  simp [exec_dece, deceBody, hd, hp]

/-- Settles O20: k values at k distinct points determine the polynomial, the solver finds it, and the completion commits its
values. -/
theorem deceWritesTheInterpolation : Obligations.DeceWritesTheInterpolation := by
  refine ⟨by decide, fun w hopc hrsv => ?_, fun s c hc => exec_of_decodeCommon_error hc (by simp), fun s d hd => ?_⟩
  · rw [decode_dece hopc, unlessReserved_of_ne (mt (reservedD_iff w).1 hrsv)]
  · obtain ⟨-, hk, -, hlen, -, hx, -, hob, -⟩ := State.decodeCommon_ok hd
    have hxk : (d.x.take d.k).length = d.k := by simp [hk]
    have hxs : (d.x.take d.k).Nodup := hx.sublist (List.take_sublist _ _)
    obtain ⟨p, hp, hplen, hpy⟩ := erasurePoly_spec (ys := d.y.take d.k) hxs (by simp [hlen])
    rw [hxk] at hp hplen
    obtain ⟨mem, hfin, hout, hframe⟩ := finish_outputs s p hob
    refine ⟨p, mem, hplen, (map_horner_take_iff hk hlen p).1 hpy, fun q hq hqy => ?_,
      (exec_dece_of_erasurePoly hd hp).trans (congrArg _ hfin), hout, hframe⟩
    have hsame : (d.x.take d.k).map (horner q) = (d.x.take d.k).map (horner p) :=
      ((map_horner_take_iff hk hlen q).2 hqy).trans hpy.symm
    exact eq_of_horner_eq hxs (hq.trans hplen.symm) (hq.trans hxk.symm).le (List.map_inj_left.1 hsame)

end Sys2Proof.Machine
end

section
/-! PROOFS. Berlekamp-Welch (42_decoder.md R210 to R214): DECBW's polynomial is the one within e errors of the y-values, if
there is one. -/

namespace Sys2Proof.Machine

/-! ### The points at which a polynomial agrees with the y-values, or differs -/

/-- The x-values of the points for which `f` holds. -/
def pointsWhere (f : Elem × Elem → Bool) (x y : List Elem) : List Elem := ((x.zip y).filter f).map Prod.fst

theorem mem_pointsWhere_iff {f : Elem × Elem → Bool} {x y : List Elem} {a : Elem} :
    a ∈ pointsWhere f x y ↔ ∃ b, (a, b) ∈ x.zip y ∧ f (a, b) = true := by
  simp [pointsWhere]

theorem pointsWhere_nodup (f : Elem × Elem → Bool) {x y : List Elem} (hx : x.Nodup) (hlen : y.length = x.length) :
    (pointsWhere f x y).Nodup := by
  refine List.Nodup.sublist (List.filter_sublist.map Prod.fst) ?_
  rwa [List.map_fst_zip hlen.ge]

/-- The polynomial's value at a point is its y-value. -/
def agrees (p : List Elem) (pt : Elem × Elem) : Bool := horner p pt.1 == pt.2

theorem agrees_iff {p : List Elem} {a b : Elem} : agrees p (a, b) = true ↔ horner p a = b := beq_iff_eq

theorem length_pointsWhere_not_agrees (p x y : List Elem) :
    (pointsWhere (fun pt => !agrees p pt) x y).length = disagreements p x y := by
  induction x generalizing y with
  | nil => rfl
  | cons a x ih =>
    cases y with
    | nil => rfl
    | cons b y =>
      have ih := ih y
      simp only [pointsWhere, List.length_map] at ih ⊢
      rw [List.zip_cons_cons, disagreements]
      by_cases hab : horner p a = b
      · rw [List.filter_cons_of_neg (by simp [agrees, hab]), ih, if_pos hab, Nat.zero_add]
      · rw [List.filter_cons_of_pos (by simp [agrees, hab]), List.length_cons, ih, if_neg hab, Nat.add_comm]

/-- Every point is one of agreement or of disagreement. -/
theorem length_pointsWhere_agrees (p : List Elem) {x y : List Elem} (hlen : y.length = x.length) :
    (pointsWhere (agrees p) x y).length + disagreements p x y = x.length := by
  have hsplit := (x.zip y).length_eq_length_filter_add (agrees p)
  rw [← length_pointsWhere_not_agrees, pointsWhere, pointsWhere, List.length_map, List.length_map, ← hsplit,
    List.length_zip, hlen, Nat.min_self]

/-! ### The key equation (R212) -/

/-- Q(x) = y·E(x) at every point, for Q with e + k coefficients and the monic E with the lower coefficients `eps`. -/
structure KeyEquation (x y : List Elem) (k e : Nat) (eps q : List Elem) : Prop where
  eps_length : eps.length = e
  q_length : q.length = e + k
  holds : ∀ a b, (a, b) ∈ x.zip y → horner q a = gmul b (horner (eps ++ [1]) a)

theorem bwRow_length (k e : Nat) (a b : Elem) : (bwRow k e a b).coeffs.length = e + k + e := by
  simp [bwRow]

/-- A row of the Berlekamp-Welch system is the key equation at its point. -/
theorem bwRow_holds_iff {k e : Nat} {q eps : List Elem} (hq : q.length = e + k) (heps : eps.length = e) (a b : Elem) :
    (bwRow k e a b).holds (q ++ eps) = true ↔ horner q a = gmul b (horner (eps ++ [1]) a) := by
  rw [Equation.holds_iff, bwRow, dot_append (by simp [hq]), dot_map_gmul, dot_powers hq, dot_powers heps, gadd_comm,
    gadd_eq_iff_eq_gadd, horner_append_singleton, heps, gmul_gadd, gadd_comm]
  simp

theorem bwRows_hold_iff {x y : List Elem} {k e : Nat} {q eps : List Elem} (hq : q.length = e + k)
    (heps : eps.length = e) :
    (∀ r ∈ List.zipWith (bwRow k e) x y, r.holds (q ++ eps) = true) ↔ KeyEquation x y k e eps q := by
  rw [← List.map_uncurry_zip_eq_zipWith, List.forall_mem_map, Prod.forall]
  simp only [Function.uncurry_apply_pair, bwRow_holds_iff hq heps]
  exact ⟨fun h => ⟨heps, hq, h⟩, fun h => h.holds⟩

theorem bwRows_length (x y : List Elem) (k e : Nat) :
    ∀ r ∈ List.zipWith (bwRow k e) x y, r.coeffs.length = e + k + e := by
  rw [← List.map_uncurry_zip_eq_zipWith]
  exact List.forall_mem_map.2 fun pt _ => bwRow_length k e pt.1 pt.2

/-- What SolveBW answers solves the key equation. -/
theorem solveBW_sound {x y : List Elem} {k e : Nat} {eps q : List Elem} (h : solveBW x y k e = some (eps, q)) :
    KeyEquation x y k e eps q := by
  obtain ⟨v, hv, hsplit⟩ := Option.map_eq_some_iff.1 h
  obtain ⟨rfl, rfl⟩ : v.drop (e + k) = eps ∧ v.take (e + k) = q := Prod.ext_iff.1 hsplit
  obtain ⟨hlen, hsol⟩ := solve_sound (bwRows_length x y k e) hv
  rw [← List.take_append_drop (e + k) v] at hsol
  exact (bwRows_hold_iff (by simp [hlen]) (by simp [hlen])).1 hsol

/-- SolveBW answers whenever the key equation has a solution. -/
theorem exists_solveBW {x y : List Elem} {k e : Nat} {eps q : List Elem} (h : KeyEquation x y k e eps q) :
    ∃ eps' q', solveBW x y k e = some (eps', q') := by
  obtain ⟨v, hv⟩ := exists_solve_of_holds (bwRows_length x y k e) (v := q ++ eps)
    (by rw [List.length_append, h.q_length, h.eps_length]) ((bwRows_hold_iff h.q_length h.eps_length).2 h)
  exact ⟨_, _, by rw [solveBW, hv]; rfl⟩

/-! ### Solutions of the key equation and polynomials within e errors (R214) -/

/-- A polynomial within e errors gives a solution: E has its errors as roots, and Q is the product. -/
theorem exists_keyEquation {x y : List Elem} {k e : Nat} {p : List Elem} (hp : p.length = k)
    (herr : disagreements p x y ≤ e) : ∃ eps q, KeyEquation x y k e eps q := by
  obtain ⟨eps, heps, hroots⟩ := exists_monic_roots (pointsWhere (fun pt => !agrees p pt) x y) (e := e)
    (by rwa [length_pointsWhere_not_agrees])
  refine ⟨eps, mulByMonic p eps, heps, by simp [heps, hp], fun a b hab => ?_⟩
  rw [horner_mulByMonic]
  by_cases hval : horner p a = b
  · rw [hval]
  · rw [hroots a (mem_pointsWhere_iff.2 ⟨b, hab, by simpa [agrees] using hval⟩)]
    simp

/-- In every solution Q = P·E: both have e + k coefficients, and they agree at the M - e ≥ e + k points where P is right. -/
theorem KeyEquation.eq_mulByMonic {x y : List Elem} {k e : Nat} {eps q : List Elem} (h : KeyEquation x y k e eps q)
    (hx : x.Nodup) (hlen : y.length = x.length) (hm : k + 2 * e ≤ x.length) {p : List Elem} (hp : p.length = k)
    (herr : disagreements p x y ≤ e) : q = mulByMonic p eps := by
  have hcount := length_pointsWhere_agrees p hlen
  refine eq_of_horner_eq (pointsWhere_nodup (agrees p) hx hlen) (by simp [h.q_length, h.eps_length, hp])
    (by rw [h.q_length]; omega) fun a ha => ?_
  obtain ⟨b, hab, hval⟩ := mem_pointsWhere_iff.1 ha
  rw [h.holds a b hab, horner_mulByMonic, agrees_iff.1 hval]

/-- If Q is P times E then P differs from the y-values at roots of E only, of which there are at most e. -/
theorem KeyEquation.disagreements_le {x y : List Elem} {k e : Nat} {eps q : List Elem} (h : KeyEquation x y k e eps q)
    (hx : x.Nodup) (hlen : y.length = x.length) {p : List Elem}
    (hprod : ∀ a, horner q a = gmul (horner p a) (horner (eps ++ [1]) a)) : disagreements p x y ≤ e := by
  rw [← length_pointsWhere_not_agrees, ← h.eps_length]
  refine length_le_of_monic_roots (pointsWhere_nodup _ hx hlen) fun a ha => ?_
  obtain ⟨b, hab, hval⟩ := mem_pointsWhere_iff.1 ha
  by_contra hne
  have heq : horner p a = b := gmul_right_cancel hne ((hprod a).symm.trans (h.holds a b hab))
  simp [agrees, heq] at hval

/-- Whatever the solution: Q / E leaves no remainder and is P exactly when P is within e errors of the y-values. -/
theorem KeyEquation.polyDivMod_iff {x y : List Elem} {k e : Nat} {eps q : List Elem} (h : KeyEquation x y k e eps q)
    (hx : x.Nodup) (hlen : y.length = x.length) (hm : k + 2 * e ≤ x.length) (p : List Elem) :
    ((∀ c ∈ (polyDivMod k q eps).2, c = 0) ∧ (polyDivMod k q eps).1 = p) ↔ p.length = k ∧ disagreements p x y ≤ e := by
  constructor
  · rintro ⟨hrem, rfl⟩
    obtain ⟨hquot, -, hdiv⟩ := polyDivMod_spec (n := k) (h.q_length.trans (congrArg (· + k) h.eps_length.symm))
    refine ⟨hquot, h.disagreements_le hx hlen fun a => ?_⟩
    rw [hdiv a, horner_eq_zero hrem, gadd_zero]
  · rintro ⟨rfl, herr⟩
    rw [h.eq_mulByMonic hx hlen hm rfl herr, polyDivMod_mulByMonic]
    exact ⟨fun c => List.eq_of_mem_replicate, rfl⟩

/-! ### The message polynomial (R210, R213) -/

/-- DECBW's polynomial is the quotient Q / E, where the system has a solution and the division leaves no remainder. -/
theorem bwPoly_eq_some_iff_div {x y p : List Elem} {k : Nat} :
    bwPoly x y k = some p ↔ ∃ eps q, solveBW x y k (errorBound x.length k) = some (eps, q) ∧
      (∀ c ∈ (polyDivMod k q eps).2, c = 0) ∧ (polyDivMod k q eps).1 = p := by
  unfold bwPoly
  cases h : solveBW x y k (errorBound x.length k) with
  | none => simp
  | some sol => obtain ⟨eps, q⟩ := sol; simp

theorem add_two_mul_errorBound_le {m k : Nat} (hk : k ≤ m) : k + 2 * errorBound m k ≤ m := by
  unfold errorBound
  omega

/-- R214: DECBW's polynomial is the one with k coefficients within e errors of the y-values. -/
theorem bwPoly_eq_some_iff {x y p : List Elem} {k : Nat} (hx : x.Nodup) (hlen : y.length = x.length)
    (hk : k ≤ x.length) :
    bwPoly x y k = some p ↔ p.length = k ∧ disagreements p x y ≤ errorBound x.length k := by
  have hm := add_two_mul_errorBound_le hk
  rw [bwPoly_eq_some_iff_div]
  constructor
  · rintro ⟨eps, q, hsol, hdiv⟩
    exact ((solveBW_sound hsol).polyDivMod_iff hx hlen hm p).1 hdiv
  · rintro ⟨hp, herr⟩
    obtain ⟨eps₀, q₀, hkey₀⟩ := exists_keyEquation hp herr
    obtain ⟨eps, q, hsol⟩ := exists_solveBW hkey₀
    exact ⟨eps, q, hsol, ((solveBW_sound hsol).polyDivMod_iff hx hlen hm p).2 ⟨hp, herr⟩⟩

/-! ### The command -/

theorem exec_decbw_of_bwPoly {s : State} {d : DecodeInput} (hd : s.decodeCommon = .ok d) {p : List Elem}
    (hp : bwPoly d.x d.y d.k = some p) : exec .decbw s = .next (s.finish (.ok (d.outputs p))) := by
  simp [exec_decbw, decbwBody, hd, hp]

theorem exec_decbw_of_none {s : State} {d : DecodeInput} (hd : s.decodeCommon = .ok d)
    (hp : bwPoly d.x d.y d.k = none) : exec .decbw s = .next (s.finish (.error .unsolvable)) := by
  simp [exec_decbw, decbwBody, hd, hp]

/-- Settles O21: a polynomial within e errors is DECBW's own, so there is one at most; DECBW's own is within e errors. -/
theorem decbwCorrectsUpToTheBound : Obligations.DecbwCorrectsUpToTheBound := by
  intro s d hd
  obtain ⟨-, hk, -, hlen, -, hx, -, hob, -⟩ := State.decodeCommon_ok hd
  have hiff : ∀ p, bwPoly d.x d.y d.k = some p ↔
      p.length = d.k ∧ disagreements p d.x d.y ≤ (d.x.length - d.k) / 2 := fun p => bwPoly_eq_some_iff hx hlen hk
  refine ⟨fun p hp herr => ⟨fun q hq hqerr => ?_, ?_⟩, fun hnone => ?_⟩
  · exact Option.some.inj (((hiff q).2 ⟨hq, hqerr⟩).symm.trans ((hiff p).2 ⟨hp, herr⟩))
  · obtain ⟨mem, hfin, hout, hframe⟩ := finish_outputs s p hob
    exact ⟨mem, (exec_decbw_of_bwPoly hd ((hiff p).2 ⟨hp, herr⟩)).trans (congrArg _ hfin), hout, hframe⟩
  · have hpoly : bwPoly d.x d.y d.k = none := Option.eq_none_iff_forall_ne_some.2 fun p hp => hnone ⟨p, (hiff p).1 hp⟩
    rw [exec_decbw_of_none hd hpoly, State.finish_error, s.complete_of_error (c := .unsolvable) nofun]

end Sys2Proof.Machine
end

section
/-! PROOFS. GLDI, GLD and GST: their words, and their effect in every state (43_data_move.md R240 to R242). -/

namespace Sys2Proof.Machine

/-- A word of Format M with one of bits [21:10] set is illegal (30_encoding.md R107, R110). -/
theorem decode_illegal_of_formatM {w : Word} {i : Instr} (hdec : decode w = unlessReserved w 0x003FFC00 i)
    (hrsv : w.extractLsb' 10 12 ≠ 0) : decode w = .illegal .reservedBits := by
  rw [hdec, unlessReserved_of_ne (mt (reservedM_iff w).1 hrsv)]

/-- Settles O16: GLDI stages one register write, its immediate, and its completion commits it. -/
theorem gldiAsSpecified : Obligations.GldiAsSpecified := by
  refine ⟨fun w => decode_of_match decode_gldi (by decide), fun w hopc hrsv => ?_, fun rd imm s => ?_⟩
  · rw [decode_gldi hopc, unlessReserved_of_ne (mt (reservedI_iff w).1 hrsv)]
  · rw [exec_gldi, State.finish_reg]

/-- Settles O17: GLD stages one register write, the byte the load reads, which is the written one where there is one. -/
theorem gldAsSpecified : Obligations.GldAsSpecified := by
  refine ⟨fun w => decode_of_match decode_gld (by decide), fun w hopc => decode_illegal_of_formatM (decode_gld hopc),
    fun rd addr s => ⟨s.loadByte addr.toNat, fun b hb => State.loadByte_written hb, ?_⟩⟩
  rw [exec_gld, State.finish_reg]

/-- Settles O18: GST stages one byte write, to an address inside LMEM, and its completion commits it. -/
theorem gstAsSpecified : Obligations.GstAsSpecified := by
  refine ⟨fun w => decode_of_match decode_gst (by decide), fun w hopc => decode_illegal_of_formatM (decode_gst hopc),
    fun rs addr s => ⟨Memory.write addr.toNat s.g[rs] s.lmem, ?_, Memory.read_write_self addr.isLt _ _,
      fun a ha => Memory.read_write_of_ne ha _ _⟩⟩
  rw [exec_gst, State.finish_mem]

end Sys2Proof.Machine
end

section
/-! PROOFS. The commands' exceptional ends: what a completion with a non-zero code leaves (60_exceptions.md R264). -/

namespace Sys2Proof.Machine

/-- The end of a command whose LERR is not OK leaves G and LMEM as they were: only the end with an error code records a code
other than OK, and that end commits nothing, whatever was staged. -/
theorem State.finish_keeps_of_lerr_ne_ok (s : State) (r : Except ResultCode (List Write)) (h : (s.finish r).lerr ≠ .ok) :
    (s.finish r).g = s.g ∧ (s.finish r).lmem = s.lmem := by
  cases r with
  | error c =>
    have hc : c ≠ .ok := by simpa using h
    exact ⟨State.complete_error_g c s hc, State.complete_error_lmem c s hc⟩
  | ok ws => exact absurd (State.complete_lerr .ok (s.stage ws)) h

/-- Settles O26: every command's answer is the end of some body, and an end with a non-zero code commits nothing. -/
theorem failingCommandCommitsNothing : Obligations.FailingCommandCommitsNothing := by
  intro i s t hexec hlerr
  obtain ⟨r, hr⟩ := exec_eq_finish i s
  obtain rfl : s.finish r = t := Host.Outcome.next.inj (hr.symm.trans hexec)
  exact s.finish_keeps_of_lerr_ne_ok r hlerr

end Sys2Proof.Machine
end

section
/-! PROOFS. Reset: the state it leaves, and its one step from any state (10_state.md R55; 70_reset_and_hazards.md R300 to R303). -/

namespace Sys2Proof.Machine

/-! ### The initialisation window (R302) -/

theorem Phase.window_ne_running (n : Nat) (f : Flight) : Phase.window n ≠ .running f := by
  cases n with
  | zero => exact nofun
  | succ n => exact nofun

/-- An initialisation window, of whatever length, has no command in flight, so there is no snapshot PARAMS. -/
theorem State.snapshot_of_window {s : State} {n : Nat} (h : s.phase = Phase.window n) : s.snapshot = none := by
  cases n with
  | zero => simp [State.snapshot, h, Phase.window]
  | succ n => simp [State.snapshot, h, Phase.window]

/-- BUSY reads 1 as long as the initialisation window has a step left (10_state.md R41). -/
theorem State.busy_of_window {s : State} {n : Nat} (h : s.phase = Phase.window n) : s.busy = true ↔ n ≠ 0 := by
  cases n with
  | zero => simp [State.busy, h, Phase.window]
  | succ n => simp [State.busy, h, Phase.window]

/-! ### Reset -/

/-- Settles O50: the registers by their initial value, no command in flight because the phase is a window's. -/
theorem resetLeavesTheSpecifiedState : Obligations.ResetLeavesTheSpecifiedState := by
  have hwin : State.reset.phase = Phase.window (Config.initTime 0) := rfl
  exact ⟨fun i => Vector.getElem_replicate i.isLt, fun _ => rfl, rfl, rfl, rfl, rfl, rfl, State.snapshot_of_window hwin,
    Phase.window_ne_running _, (idAndStatusReadAsSpecified State.reset).1⟩

/-- Settles O51: the step is `resetBy`, whatever the phase, and the phase it leaves is a window of the time drawn for it. -/
theorem resetFromAnyState : Obligations.ResetFromAnyState := by
  intro s rest hhost
  have hwin : (s.resetBy rest).phase = Phase.window (Config.initTime (s.draws + 1)) := s.resetBy_phase rest
  exact ⟨s.resetBy rest, step_of_reset hhost, rfl, rfl, rfl, rfl, rfl, rfl, rfl, State.snapshot_of_window hwin, rfl,
    _, hwin, State.busy_of_window hwin⟩

end Sys2Proof.Machine
end

section
/-! PROOFS. The encoder against the decoder (30_encoding.md R101 to R110): the words of each format, the fields read back from
them, and the word put together again from its fields. -/

namespace Sys2Proof

/-! ### Fields of a word -/

/-- A field of a word, put back where it was read, is that part of the word. -/
theorem field_extract (w : Word) (lo n : Nat) :
    field (w.extractLsb' lo n) lo = w &&& BitVec.ofNat 32 ((2 ^ n - 1) <<< lo) := by
  refine BitVec.eq_of_getLsbD_eq fun i hi => ?_
  rw [BitVec.getLsbD_and, mask_getLsbD]
  by_cases hlo : lo ≤ i
  · simp [field, hi, hlo, show ¬ i < lo by omega, Bool.and_comm]
  · simp [field, hlo, show i < lo by omega]

/-- A register field is a field of four bits. -/
theorem regField_toFin (v : BitVec 4) (lo : Nat) : regField v.toFin lo = field v lo := rfl

/-- A mask that leaves out only bits that are zero leaves the word as it is. -/
theorem and_mask_eq_self {w rsv mask : Word} (hrsv : w &&& rsv = 0) (hmask : mask ||| rsv = BitVec.allOnes 32) :
    w &&& mask = w := by
  calc w &&& mask = w &&& mask ||| w &&& rsv := by rw [hrsv]; exact BitVec.or_zero.symm
    _ = w &&& (mask ||| rsv) := BitVec.and_or_distrib_left.symm
    _ = w := by rw [hmask, BitVec.and_allOnes]

/-! ### The formats (R102 to R107) -/

/-- Format R (R102). -/
def formatR (opc : BitVec 6) (rd ra rb : RegIdx) : Word :=
  field opc 26 ||| regField rd 22 ||| regField ra 18 ||| regField rb 14

/-- Format U (R103). -/
def formatU (opc : BitVec 6) (rd ra : RegIdx) : Word := field opc 26 ||| regField rd 22 ||| regField ra 18

/-- Format P (R104). -/
def formatP (opc : BitVec 6) (rd rx : RegIdx) (deg : BitVec 8) (base : LmemAddr) : Word :=
  field opc 26 ||| regField rd 22 ||| regField rx 18 ||| field deg 10 ||| field base 0

/-- Formats I and M (R106, R107): RD, and a last field from bit 0. -/
def formatIM (opc : BitVec 6) (rd : RegIdx) (v : BitVec n) : Word := field opc 26 ||| regField rd 22 ||| field v 0

/-! The fields of each format's words. -/

theorem formatR_fields (opc : BitVec 6) (rd ra rb : RegIdx) :
    opcField (formatR opc rd ra rb) = opc ∧ rdField (formatR opc rd ra rb) = rd ∧ raField (formatR opc rd ra rb) = ra ∧
      rbField (formatR opc rd ra rb) = rb ∧ formatR opc rd ra rb &&& 0x00003FFF = 0 := by
  rw [reservedR_iff]
  simp [formatR, opcField, rdField, raField, rbField, regField, extract_or, extract_field_self, extract_field_other]

theorem formatU_fields (opc : BitVec 6) (rd ra : RegIdx) :
    opcField (formatU opc rd ra) = opc ∧ rdField (formatU opc rd ra) = rd ∧ raField (formatU opc rd ra) = ra ∧
      formatU opc rd ra &&& 0x0003FFFF = 0 := by
  rw [reservedU_iff]
  simp [formatU, opcField, rdField, raField, regField, extract_or, extract_field_self, extract_field_other]

theorem formatP_fields (opc : BitVec 6) (rd rx : RegIdx) (deg : BitVec 8) (base : LmemAddr) :
    opcField (formatP opc rd rx deg base) = opc ∧ rdField (formatP opc rd rx deg base) = rd ∧
      raField (formatP opc rd rx deg base) = rx ∧ degField (formatP opc rd rx deg base) = deg ∧
      addrField (formatP opc rd rx deg base) = base := by
  simp [formatP, opcField, rdField, raField, degField, addrField, regField, extract_or, extract_field_self,
    extract_field_other]

theorem formatI_fields (opc : BitVec 6) (rd : RegIdx) (imm : Elem) :
    opcField (formatIM opc rd imm) = opc ∧ rdField (formatIM opc rd imm) = rd ∧ immField (formatIM opc rd imm) = imm ∧
      formatIM opc rd imm &&& 0x003FFF00 = 0 := by
  rw [reservedI_iff]
  simp [formatIM, opcField, rdField, immField, regField, extract_or, extract_field_self, extract_field_other]

theorem formatM_fields (opc : BitVec 6) (rd : RegIdx) (addr : LmemAddr) :
    opcField (formatIM opc rd addr) = opc ∧ rdField (formatIM opc rd addr) = rd ∧
      addrField (formatIM opc rd addr) = addr ∧ formatIM opc rd addr &&& 0x003FFC00 = 0 := by
  rw [reservedM_iff]
  simp [formatIM, opcField, rdField, addrField, regField, extract_or, extract_field_self, extract_field_other]

/-! A word with no reserved bit set is put together from its fields. -/

theorem formatR_of_fields {w : Word} {opc : BitVec 6} (hopc : opcField w = opc) (h : w &&& 0x00003FFF = 0) :
    formatR opc (rdField w) (raField w) (rbField w) = w := by
  simp only [formatR, ← hopc, opcField, rdField, raField, rbField, regField_toFin, field_extract, ← BitVec.and_or_distrib_left]
  exact and_mask_eq_self h (by decide)

theorem formatU_of_fields {w : Word} {opc : BitVec 6} (hopc : opcField w = opc) (h : w &&& 0x0003FFFF = 0) :
    formatU opc (rdField w) (raField w) = w := by
  simp only [formatU, ← hopc, opcField, rdField, raField, regField_toFin, field_extract, ← BitVec.and_or_distrib_left]
  exact and_mask_eq_self h (by decide)

theorem formatP_of_fields {w : Word} {opc : BitVec 6} (hopc : opcField w = opc) :
    formatP opc (rdField w) (raField w) (degField w) (addrField w) = w := by
  simp only [formatP, ← hopc, opcField, rdField, raField, degField, addrField, regField_toFin, field_extract,
    ← BitVec.and_or_distrib_left]
  exact and_mask_eq_self (rsv := 0) BitVec.and_zero (by decide)

theorem formatD_of_fields {w : Word} {opc : BitVec 6} (hopc : opcField w = opc) (h : w &&& 0x03FFFFFF = 0) :
    field opc 26 = w := by
  rw [← hopc, opcField, field_extract]
  exact and_mask_eq_self h (by decide)

theorem formatI_of_fields {w : Word} {opc : BitVec 6} (hopc : opcField w = opc) (h : w &&& 0x003FFF00 = 0) :
    formatIM opc (rdField w) (immField w) = w := by
  simp only [formatIM, ← hopc, opcField, rdField, immField, regField_toFin, field_extract, ← BitVec.and_or_distrib_left]
  exact and_mask_eq_self h (by decide)

theorem formatM_of_fields {w : Word} {opc : BitVec 6} (hopc : opcField w = opc) (h : w &&& 0x003FFC00 = 0) :
    formatIM opc (rdField w) (addrField w) = w := by
  simp only [formatIM, ← hopc, opcField, rdField, addrField, regField_toFin, field_extract, ← BitVec.and_or_distrib_left]
  exact and_mask_eq_self h (by decide)

/-! ### The words of the commands -/

theorem encode_gadd (rd ra rb : RegIdx) : encode (.gadd rd ra rb) = formatR 0x01 rd ra rb := rfl

theorem encode_gmul (rd ra rb : RegIdx) : encode (.gmul rd ra rb) = formatR 0x02 rd ra rb := rfl

theorem encode_ginv (rd ra : RegIdx) : encode (.ginv rd ra) = formatU 0x03 rd ra := rfl

theorem encode_peval (rd rx : RegIdx) (deg : BitVec 8) (base : LmemAddr) :
    encode (.peval rd rx deg base) = formatP 0x04 rd rx deg base := rfl

theorem encode_gldi (rd : RegIdx) (imm : Elem) : encode (.gldi rd imm) = formatIM 0x10 rd imm := rfl

theorem encode_gld (rd : RegIdx) (addr : LmemAddr) : encode (.gld rd addr) = formatIM 0x11 rd addr := rfl

theorem encode_gst (rs : RegIdx) (addr : LmemAddr) : encode (.gst rs addr) = formatIM 0x12 rs addr := rfl

/-- Settles O1: the word of a command holds its opcode, which selects the format it is read with, no reserved bit, and each
operand in its field. -/
theorem decodeEncodeRoundTrip : Obligations.DecodeEncodeRoundTrip := by
  intro i
  cases i with
  | gadd rd ra rb =>
    obtain ⟨hopc, hrd, hra, hrb, hrsv⟩ := formatR_fields 0x01 rd ra rb
    rw [encode_gadd, decode_gadd hopc, unlessReserved_of_zero hrsv, hrd, hra, hrb]
  | gmul rd ra rb =>
    obtain ⟨hopc, hrd, hra, hrb, hrsv⟩ := formatR_fields 0x02 rd ra rb
    rw [encode_gmul, decode_gmul hopc, unlessReserved_of_zero hrsv, hrd, hra, hrb]
  | ginv rd ra =>
    obtain ⟨hopc, hrd, hra, hrsv⟩ := formatU_fields 0x03 rd ra
    rw [encode_ginv, decode_ginv hopc, unlessReserved_of_zero hrsv, hrd, hra]
  | peval rd rx deg base =>
    obtain ⟨hopc, hrd, hrx, hdeg, hbase⟩ := formatP_fields 0x04 rd rx deg base
    rw [encode_peval, decode_peval hopc, unlessReserved_of_zero (rsv := 0) BitVec.and_zero, hrd, hrx, hdeg, hbase]
  | dece => decide
  | decbw => decide
  | gldi rd imm =>
    obtain ⟨hopc, hrd, himm, hrsv⟩ := formatI_fields 0x10 rd imm
    rw [encode_gldi, decode_gldi hopc, unlessReserved_of_zero hrsv, hrd, himm]
  | gld rd addr =>
    obtain ⟨hopc, hrd, haddr, hrsv⟩ := formatM_fields 0x11 rd addr
    rw [encode_gld, decode_gld hopc, unlessReserved_of_zero hrsv, hrd, haddr]
  | gst rs addr =>
    obtain ⟨hopc, hrs, haddr, hrsv⟩ := formatM_fields 0x12 rs addr
    rw [encode_gst, decode_gst hopc, unlessReserved_of_zero hrsv, hrs, haddr]

/-- A word read with a format whose words its fields give back encodes what it decodes to. -/
theorem encode_eq_of_unlessReserved {w rsv : Word} {i j : Instr} (hdec : decode w = unlessReserved w rsv j)
    (hword : w &&& rsv = 0 → encode j = w) (h : decode w = .instr i) : encode i = w := by
  obtain ⟨hrsv, rfl⟩ := unlessReserved_eq_instr.1 (hdec.symm.trans h)
  exact hword hrsv

/-- Settles O2: a word that decodes has an assigned opcode and no reserved bit set, so its fields give it back. -/
theorem decodedWordIsTheEncoding : Obligations.DecodedWordIsTheEncoding := by
  intro w i h
  have hopc : opcField w ∈ assignedOpcodes := by
    by_contra hnot
    rw [decode_reserved hnot] at h
    cases h
  simp only [assignedOpcodes, List.mem_cons, List.not_mem_nil, or_false] at hopc
  obtain hopc | hopc | hopc | hopc | hopc | hopc | hopc | hopc | hopc := hopc
  · exact encode_eq_of_unlessReserved (decode_gadd hopc) (formatR_of_fields hopc) h
  · exact encode_eq_of_unlessReserved (decode_gmul hopc) (formatR_of_fields hopc) h
  · exact encode_eq_of_unlessReserved (decode_ginv hopc) (formatU_of_fields hopc) h
  · exact encode_eq_of_unlessReserved (decode_peval hopc) (fun _ => formatP_of_fields hopc) h
  · exact encode_eq_of_unlessReserved (decode_dece hopc) (formatD_of_fields hopc) h
  · exact encode_eq_of_unlessReserved (decode_decbw hopc) (formatD_of_fields hopc) h
  · exact encode_eq_of_unlessReserved (decode_gldi hopc) (formatI_of_fields hopc) h
  · exact encode_eq_of_unlessReserved (decode_gld hopc) (formatM_of_fields hopc) h
  · exact encode_eq_of_unlessReserved (decode_gst hopc) (formatM_of_fields hopc) h

/-- Settles O5: each word by evaluating the decoder on it. -/
theorem specWordsDecode : Obligations.SpecWordsDecode :=
  ⟨by decide, by decide, by decide, by decide, by decide, by decide, by decide, by decide, by decide⟩

end Sys2Proof
end

section
/-! PROOFS. The assembler (30_encoding.md R114): which operands it refuses, and where it puts the others. -/

namespace Sys2Proof

/-! ### Assembling -/

theorem Asm.assemble_eq_none_iff (a : Asm) : a.assemble = none ↔ a.wellFormed = false := by
  simp [assemble]

theorem Asm.assemble_eq_some_iff (a : Asm) (i : Instr) : a.assemble = some i ↔ a.wellFormed = true ∧ a.toInstr = i := by
  simp [assemble]

/-- A statement whose operands are in range assembles, and its command's word is the statement's. -/
theorem Asm.encode_of_assemble {a : Asm} {i : Instr} (h : a.assemble = some i) :
    a.wellFormed = true ∧ encode i = encode a.toInstr := by
  obtain ⟨hwf, rfl⟩ := (a.assemble_eq_some_iff i).1 h
  exact ⟨hwf, rfl⟩

/-! The range checks, as bounds. -/

theorem Asm.regOk_iff (r : Nat) : regOk r = true ↔ r < 16 := decide_eq_true_iff

theorem Asm.byteOk_iff (v : Nat) : byteOk v = true ↔ v < 256 := decide_eq_true_iff

theorem Asm.addrOk_iff (a : Nat) : addrOk a = true ↔ a < 1024 := decide_eq_true_iff

/-- An operand in range is not truncated: a register's number. -/
theorem val_ofNat_of_regOk {r : Nat} (h : Asm.regOk r = true) : (Fin.ofNat 16 r).val = r :=
  Nat.mod_eq_of_lt ((Asm.regOk_iff r).1 h)

/-- The same of a byte. -/
theorem toNat_ofNat_of_byteOk {v : Nat} (h : Asm.byteOk v = true) : (BitVec.ofNat 8 v).toNat = v :=
  Nat.mod_eq_of_lt ((Asm.byteOk_iff v).1 h)

/-- The same of an address. -/
theorem toNat_ofNat_of_addrOk {a : Nat} (h : Asm.addrOk a = true) : (BitVec.ofNat 10 a).toNat = a :=
  Nat.mod_eq_of_lt ((Asm.addrOk_iff a).1 h)

/-! ### Refusals -/

theorem Asm.refuses_reg_iff (d : Nat) : regOk d = false ↔ 15 < d := by
  rw [← Bool.not_eq_true, regOk_iff]; omega

theorem Asm.refuses_byte_iff (v : Nat) : byteOk v = false ↔ 255 < v := by
  rw [← Bool.not_eq_true, byteOk_iff]; omega

theorem Asm.refuses_addr_iff (a : Nat) : addrOk a = false ↔ 1023 < a := by
  rw [← Bool.not_eq_true, addrOk_iff]; omega

/-! ### The operands of the words of each form -/

/-- GADD and GMUL: three registers in the fields of Format R. -/
theorem formatR_operands (opc : BitVec 6) {d a b : Nat} (h : (Asm.regOk d && Asm.regOk a && Asm.regOk b) = true)
    {w : Word} (hw : w = formatR opc (Fin.ofNat 16 d) (Fin.ofNat 16 a) (Fin.ofNat 16 b)) :
    opcField w = opc ∧ (rdField w).val = d ∧ (raField w).val = a ∧ (rbField w).val = b := by
  simp only [Bool.and_eq_true] at h
  obtain ⟨⟨hd, ha⟩, hb⟩ := h
  obtain ⟨hopc, hrd, hra, hrb, -⟩ := formatR_fields opc (Fin.ofNat 16 d) (Fin.ofNat 16 a) (Fin.ofNat 16 b)
  rw [hw, hopc, hrd, hra, hrb]
  exact ⟨rfl, val_ofNat_of_regOk hd, val_ofNat_of_regOk ha, val_ofNat_of_regOk hb⟩

/-- GINV: two registers in the fields of Format U. -/
theorem formatU_operands (opc : BitVec 6) {d a : Nat} (h : (Asm.regOk d && Asm.regOk a) = true) {w : Word}
    (hw : w = formatU opc (Fin.ofNat 16 d) (Fin.ofNat 16 a)) :
    opcField w = opc ∧ (rdField w).val = d ∧ (raField w).val = a := by
  simp only [Bool.and_eq_true] at h
  obtain ⟨hd, ha⟩ := h
  obtain ⟨hopc, hrd, hra, -⟩ := formatU_fields opc (Fin.ofNat 16 d) (Fin.ofNat 16 a)
  rw [hw, hopc, hrd, hra]
  exact ⟨rfl, val_ofNat_of_regOk hd, val_ofNat_of_regOk ha⟩

/-- PEVAL: two registers, a degree and an address in the fields of Format P. -/
theorem formatP_operands (opc : BitVec 6) {d x deg base : Nat}
    (h : (Asm.regOk d && Asm.regOk x && Asm.byteOk deg && Asm.addrOk base) = true) {w : Word}
    (hw : w = formatP opc (Fin.ofNat 16 d) (Fin.ofNat 16 x) (BitVec.ofNat 8 deg) (BitVec.ofNat 10 base)) :
    opcField w = opc ∧ (rdField w).val = d ∧ (raField w).val = x ∧ (degField w).toNat = deg ∧
      (addrField w).toNat = base := by
  simp only [Bool.and_eq_true] at h
  obtain ⟨⟨⟨hd, hx⟩, hdeg⟩, hbase⟩ := h
  obtain ⟨hopc, hrd, hrx, hdegf, hbasef⟩ :=
    formatP_fields opc (Fin.ofNat 16 d) (Fin.ofNat 16 x) (BitVec.ofNat 8 deg) (BitVec.ofNat 10 base)
  rw [hw, hopc, hrd, hrx, hdegf, hbasef]
  exact ⟨rfl, val_ofNat_of_regOk hd, val_ofNat_of_regOk hx, toNat_ofNat_of_byteOk hdeg, toNat_ofNat_of_addrOk hbase⟩

/-- GLDI: a register and a byte in the fields of Format I. -/
theorem formatI_operands (opc : BitVec 6) {d imm : Nat} (h : (Asm.regOk d && Asm.byteOk imm) = true) {w : Word}
    (hw : w = formatIM opc (Fin.ofNat 16 d) (BitVec.ofNat 8 imm)) :
    opcField w = opc ∧ (rdField w).val = d ∧ (immField w).toNat = imm := by
  simp only [Bool.and_eq_true] at h
  obtain ⟨hd, himm⟩ := h
  obtain ⟨hopc, hrd, himmf, -⟩ := formatI_fields opc (Fin.ofNat 16 d) (BitVec.ofNat 8 imm)
  rw [hw, hopc, hrd, himmf]
  exact ⟨rfl, val_ofNat_of_regOk hd, toNat_ofNat_of_byteOk himm⟩

/-- GLD and GST: a register and an address in the fields of Format M. -/
theorem formatM_operands (opc : BitVec 6) {d addr : Nat} (h : (Asm.regOk d && Asm.addrOk addr) = true) {w : Word}
    (hw : w = formatIM opc (Fin.ofNat 16 d) (BitVec.ofNat 10 addr)) :
    opcField w = opc ∧ (rdField w).val = d ∧ (addrField w).toNat = addr := by
  simp only [Bool.and_eq_true] at h
  obtain ⟨hd, haddr⟩ := h
  obtain ⟨hopc, hrd, haddrf, -⟩ := formatM_fields opc (Fin.ofNat 16 d) (BitVec.ofNat 10 addr)
  rw [hw, hopc, hrd, haddrf]
  exact ⟨rfl, val_ofNat_of_regOk hd, toNat_ofNat_of_addrOk haddr⟩

/-! ### Disassembly -/

/-- The operands of a disassembled command are its own, so they are in range. -/
theorem Instr.toAsm_wellFormed (i : Instr) : i.toAsm.wellFormed = true := by
  have hreg (r : RegIdx) : Asm.regOk r.val = true := (Asm.regOk_iff _).2 r.isLt
  have hbyte (v : BitVec 8) : Asm.byteOk v.toNat = true := (Asm.byteOk_iff _).2 v.isLt
  have haddr (a : LmemAddr) : Asm.addrOk a.toNat = true := (Asm.addrOk_iff _).2 a.isLt
  cases i <;> simp [toAsm, Asm.wellFormed, hreg, hbyte, haddr]

theorem Instr.toInstr_toAsm (i : Instr) : i.toAsm.toInstr = i := by
  cases i <;> simp [toAsm, Asm.toInstr]

/-- Settles O7: a refusal is an operand's failed check; an operand that passes is its own number, and stands in its field. -/
theorem assemblerRefusesAndKeepsOperands : Obligations.AssemblerRefusesAndKeepsOperands := by
  unfold Obligations.AssemblerRefusesAndKeepsOperands
  simp only [Asm.assemble_eq_none_iff, Asm.wellFormed, Bool.and_eq_false_iff, Asm.refuses_reg_iff, Asm.refuses_byte_iff,
    Asm.refuses_addr_iff, or_assoc, implies_true, true_and]
  refine ⟨fun d a b i h => ?_, fun d a b i h => ?_, fun d a i h => ?_, fun d x deg base i h => ?_, fun i h => ?_,
    fun i h => ?_, fun d imm i h => ?_, fun d addr i h => ?_, fun s addr i h => ?_, rfl, rfl,
    fun i => (Asm.assemble_eq_some_iff _ i).2 ⟨i.toAsm_wellFormed, i.toInstr_toAsm⟩⟩
  all_goals obtain ⟨hwf, hw⟩ := Asm.encode_of_assemble h
  · exact formatR_operands 0x01 hwf hw
  · exact formatR_operands 0x02 hwf hw
  · exact formatU_operands 0x03 hwf hw
  · exact formatP_operands 0x04 hwf hw
  · exact hw ▸ by decide
  · exact hw ▸ by decide
  · exact formatI_operands 0x10 hwf hw
  · exact formatM_operands 0x11 hwf hw
  · exact formatM_operands 0x12 hwf hw

end Sys2Proof
end

section
/-! PROOFS. What DECBW's and DECE's algebra promises whatever solution is taken: division, the solver's answer, and the choice
of a solution (42_decoder.md R203, R212 to R214). -/

namespace Sys2Proof.Machine

/-- Settles O24: the identity of long division, by induction on the quotient's length. -/
theorem divisionIdentity : Obligations.DivisionIdentity := fun _ _ _ => polyDivMod_spec

/-- Settles O23: each step of the elimination keeps the solutions, in both directions. -/
theorem solverIsSoundAndComplete : Obligations.SolverIsSoundAndComplete := by
  intro n eqs hn
  refine ⟨fun v => solve_sound hn, fun hnone v hlen => ?_⟩
  by_contra hall
  push Not at hall
  obtain ⟨w, hw⟩ := exists_solve_of_holds hn hlen (v := v) fun q hq => by simpa using hall q hq
  rw [hnone] at hw
  cases hw

/-- Settles O22: for any solution, Q / E is the polynomial within e errors of the y-values, which is DECBW's. -/
theorem solutionChoiceDoesNotMatter : Obligations.SolutionChoiceDoesNotMatter := by
  intro x y k eps q hx hlen _ hk heps hq hrows
  have hkey := (bwRows_hold_iff hq heps).1 hrows
  have hiff (p : List Elem) : ((∀ c ∈ (polyDivMod k q eps).2, c = 0) ∧ (polyDivMod k q eps).1 = p) ↔
      bwPoly x y k = some p :=
    (hkey.polyDivMod_iff hx hlen (add_two_mul_errorBound_le hk) p).trans (bwPoly_eq_some_iff hx hlen hk).symm
  exact ⟨fun hrem => (hiff _).1 ⟨hrem, rfl⟩, fun p => (hiff p).2⟩

end Sys2Proof.Machine
end

section
/-! PROOFS. The host's transactions: what each event does in the host's turn, while BUSY = 0 and inside a BUSY window
(20_memory.md R76 to R78, R81; 10_state.md R44 to R46). -/

namespace Sys2Proof.Machine

/-! ### The port and the list of events -/

theorem State.busy_of_idle {s : State} (h : s.phase = .idle) : s.busy = false := by
  simp [State.busy, h]

/-- What a port write does has nothing to do with the events to come. -/
theorem State.portWrite_withHost (s : State) (rest : List HostEvent) (w : Word) (r : PortReg) :
    { s with host := rest }.portWrite w r = { s.portWrite w r with host := rest } := by
  have hbusy : { s with host := rest }.busy = s.busy := rfl
  cases r with
  | id | status | unassigned => rfl
  | ctrl => simp only [State.portWrite]; split <;> rfl
  | cmd | decX | decY | decO | decMk | reg i | lmem v =>
    simp only [State.portWrite, State.unlessBusy, hbusy]
    split <;> rfl

/-! ### The events, one by one -/

theorem State.hostTurn_nil {s : State} (h : s.host = []) : s.hostTurn = { s with pready := false } := by
  simp only [State.hostTurn, h, State.noTransaction]

theorem State.hostTurn_write {s : State} {off : PortOffset} {w : Word} {rest : List HostEvent}
    (h : s.host = .write off w :: rest) :
    s.hostTurn = { s.portWrite w (portReg off) with host := rest, pready := true } := by
  simp only [State.hostTurn, h, State.performWrite, State.portWrite_withHost]

theorem State.hostTurn_read {s : State} {off : PortOffset} {rest : List HostEvent} (h : s.host = .read off :: rest) :
    s.hostTurn = { s with
      prdata := s.portRead (portReg off), host := rest, pready := true, draws := s.draws + 1 } := by
  simp only [State.hostTurn, h, State.performRead]
  cases portReg off <;> rfl

theorem State.hostTurn_poll {s : State} {rest : List HostEvent} (h : s.host = .poll :: rest) :
    s.hostTurn = { s with
      prdata := s.portRead .status, host := if s.busy then .poll :: rest else rest, pready := true } := by
  simp only [State.hostTurn, h, State.performPoll]
  rfl

/-! ### The step of a transaction -/

/-- The passing of a window looks at the phase only. -/
theorem State.tick_phase_congr {s t : State} (h : s.phase = t.phase) : s.tick.phase = t.tick.phase := by
  cases ht : t.phase <;> simp [State.tick, h, ht]

/-- The step of a transaction that accepts no command: BUSY's window passes, if there is one. -/
theorem step_of_transaction {s : State} (hr : ∀ rest, s.host ≠ .reset :: rest) (h : s.phase = .idle ∨ s.hostInBusyWindow)
    (hkeep : s.hostTurn.phase = s.phase) : step s = .next { s.hostTurn with phase := s.tick.phase } := by
  have hphase := State.tick_phase_congr hkeep
  rcases h with h | h
  · have htick : s.tick = s := by simp only [State.tick, h]
    rw [step_of_idle hr h, htick, ← hkeep]
  · rw [step_of_inBusyWindow hr h, State.tick_eq, hphase]

/-- Settles O33: the host's turn is the step, and each event's turn is an equation. -/
theorem idleStepPerformsTheHostsTransaction : Obligations.IdleStepPerformsTheHostsTransaction := by
  intro s rest hidle
  refine ⟨fun h => ?_, fun off w h => ?_, fun off h => ?_, fun h => ?_⟩
  · rw [step_of_idle (by simp [h]) hidle, State.hostTurn_nil h]
  · rw [step_of_idle (by simp [h]) hidle, State.hostTurn_write h]
  · rw [step_of_idle (by simp [h]) hidle, State.hostTurn_read h]
  · rw [step_of_idle (by simp [h]) hidle, State.hostTurn_poll h, State.busy_of_idle hidle]
    rfl

/-- Settles O35: the port drops the write and sets OVR, and the window passes. -/
theorem protectedWritesAreDroppedWhileBusy : Obligations.ProtectedWritesAreDroppedWhileBusy := by
  intro s off w rest hbusy h hprot
  have hturn : s.hostTurn = { s with ovr := true, host := rest, pready := true } := by
    rw [State.hostTurn_write h, State.portWrite_protected_busy (State.busy_of_inBusyWindow hbusy) w hprot]
    rfl
  rw [step_of_transaction (by simp [h]) (.inr hbusy) (by rw [hturn]), hturn]

/-- Settles O34: while BUSY = 0 the port accepts the word, for the latency drawn for it; in a window CMD is protected. -/
theorem cmdWriteAcceptsWhenIdle : Obligations.CmdWriteAcceptsWhenIdle := by
  intro s off w rest hoff
  refine ⟨fun hidle h => ⟨Config.lat s.draws w, ?_⟩, fun hbusy h => ?_, by rw [hoff]; rfl⟩
  · have haccept : s.portWrite w .cmd = s.accept w := State.unlessBusy_idle (State.busy_of_idle hidle) _
    rw [step_of_idle (by simp [h]) hidle, State.hostTurn_write h, hoff, haccept]
    rfl
  · exact protectedWritesAreDroppedWhileBusy s off w rest hbusy h (.inl (by simp [hoff]))

/-- Settles O36: bit 0 decides, whatever the phase. -/
theorem ctrlClearsTheErrorState : Obligations.CtrlClearsTheErrorState := by
  intro s off w rest hoff h hphase
  have hr : ∀ rest, s.host ≠ .reset :: rest := by simp [h]
  refine ⟨fun hbit => ?_, fun hbit => ?_, rfl⟩
  · have hclear : s.portWrite w .ctrl = s.clearErrors := if_pos hbit
    have hturn := State.hostTurn_write h
    rw [hoff, hclear] at hturn
    rw [step_of_transaction hr hphase (by rw [hturn]; rfl), hturn]
    rfl
  · have hkeep : s.portWrite w .ctrl = s := if_neg (ne_true_of_eq_false hbit)
    have hturn := State.hostTurn_write h
    rw [hoff, hkeep] at hturn
    rw [step_of_transaction hr hphase (by rw [hturn]), hturn]

/-! ### Reads (20_memory.md R78; 70_reset_and_hazards.md R308) -/

/-- A read of Gi is an element with zeros above it, also where its value is free. -/
theorem State.portRead_reg_high (s : State) (i : RegIdx) : (s.portRead (.reg i)).extractLsb' 8 24 = 0 := by
  have hzero (v : Elem) : (v.setWidth 32).extractLsb' 8 24 = 0 := by
    refine BitVec.eq_of_getLsbD_eq fun j hj => ?_
    simp
  simp only [State.portRead]
  cases s.busy <;> exact hzero _

theorem State.portRead_reg_idle {s : State} (hb : s.busy = false) (i : RegIdx) :
    s.portRead (.reg i) = s.g[i].setWidth 32 := by
  simp [State.portRead, hb, State.readReg]

/-- The bytes of a word put together from four, read back. -/
theorem wordByte_append (b3 b2 b1 b0 : Elem) {i : Nat} (hi : i < 4) :
    wordByte (b3 ++ b2 ++ b1 ++ b0) i = [b0, b1, b2, b3].getD i 0 := by
  rcases (by omega : i = 0 ∨ i = 1 ∨ i = 2 ∨ i = 3) with rfl | rfl | rfl | rfl
  all_goals
    simp only [wordByte, BitVec.extractLsb'_append_eq_of_le, BitVec.extractLsb'_append_eq_right,
      BitVec.extractLsb'_eq_self, Nat.reduceLeDiff, Nat.reduceSub, Nat.reduceMul, Nat.le_refl, Nat.mul_zero]
    rfl

/-- A byte of the LMEM window word is the byte of LMEM that it covers (R72). -/
theorem State.wordByte_windowWord (s : State) (v : BitVec 8) {i : Nat} (hi : i < 4) :
    wordByte (s.windowWord v) i = s.loadByte (4 * v.toNat + i) := by
  rw [State.windowWord, wordByte_append _ _ _ _ hi]
  rcases (by omega : i = 0 ∨ i = 1 ∨ i = 2 ∨ i = 3) with rfl | rfl | rfl | rfl <;> rfl

/-- Settles O41: the read's turn changes the port's outputs only, and what it drives is `portRead`. -/
theorem readsHaveNoSideEffect : Obligations.ReadsHaveNoSideEffect := by
  intro s off rest h hphase
  have hturn := State.hostTurn_read h
  refine ⟨s.portRead (portReg off), ?_, fun _ _ => rfl, fun i hoff => ?_, fun i hoff hb => ?_,
    fun v hoff hb i hi b hread => ?_⟩
  · rw [step_of_transaction (by simp [h]) hphase (by rw [hturn]), hturn]
  · rw [hoff, State.portRead_reg_high]
  · rw [hoff, State.portRead_reg_idle hb]
  · rw [hoff, State.portRead_lmem_idle hb]
    exact (s.wordByte_windowWord v hi).trans (State.loadByte_written hread)

/-! ### Writes of the registers while BUSY = 0 (10_state.md R33, R48 to R51) -/

/-- The low bits of a word, with zeros above them. -/
theorem setWidth_extract_low (w : Word) (n : Nat) :
    (w.extractLsb' 0 n).setWidth 32 = w &&& BitVec.ofNat 32 (2 ^ n - 1) := by
  simpa [field] using field_extract w 0 n

/-- DEC_MK reads as the low 24 bits of what was written to it: the word's three low bytes, under a zero byte. -/
theorem zero_append_wordBytes (w : Word) : 0#8 ++ wordByte w 2 ++ wordByte w 1 ++ wordByte w 0 = w &&& 0xFFFFFF := by
  have hand (i : Nat) : wordByte (w &&& 0xFFFFFF) i = wordByte w i &&& wordByte 0xFFFFFF i := BitVec.extractLsb'_and
  have hhigh : wordByte 0xFFFFFF 3 = 0#8 := by decide
  have hlow : ∀ i < 3, wordByte 0xFFFFFF i = BitVec.allOnes 8 := by decide
  rw [← append_wordBytes (w &&& 0xFFFFFF), hand, hand, hand, hand, hhigh, hlow 2 (by decide), hlow 1 (by decide),
    hlow 0 (by decide), BitVec.and_zero]
  simp only [BitVec.and_allOnes]

/-- Settles O37: each write sets its fields, and the read puts them together again. -/
theorem registerWritesReadBack : Obligations.RegisterWritesReadBack := by
  intro s w hb
  have hten : w.setWidth 10 = w.extractLsb' 0 10 := BitVec.setWidth_eq_extractLsb' (by decide)
  simp only [State.portWrite, State.unlessBusy_idle hb, hten]
  refine ⟨⟨trivial, setWidth_extract_low w 10⟩, ⟨trivial, setWidth_extract_low w 10⟩,
    ⟨trivial, setWidth_extract_low w 10⟩, ⟨rfl, zero_append_wordBytes w⟩, fun i => ⟨rfl, ?_⟩⟩
  rw [State.portRead_reg_idle (s := s.writeReg i (wordByte w 0)) hb, State.writeReg_g]
  exact (congrArg (BitVec.setWidth 32) (Vector.getElem_set_self i.isLt)).trans (setWidth_extract_low w 8)

end Sys2Proof.Machine
end

section
/-! PROOFS. The invariant of the machine: it holds at reset, and each kind of step keeps it (10_state.md sections 4 to 7;
70_reset_and_hazards.md R302, R307). -/

namespace Sys2Proof.Machine

/-! ### Reset -/

/-- Every state that reset leaves meets the invariant. -/
theorem State.resetBy_inv (rest : List HostEvent) (s : State) : (s.resetBy rest).Inv :=
  ⟨⟨List.Pairwise.nil, nofun⟩, rfl, fun h => absurd rfl h, .inl (State.snapshot_of_window (s.resetBy_phase rest)),
    fun _ => ⟨rfl, rfl, rfl, rfl, rfl⟩⟩

/-- Settles O53: State.reset has the registers of a taken reset, and its phase is a window's too. -/
theorem resetSatisfiesInv : Obligations.ResetSatisfiesInv :=
  ⟨⟨List.Pairwise.nil, nofun⟩, rfl, fun h => absurd rfl h, .inl (State.snapshot_of_window rfl),
    fun _ => ⟨rfl, rfl, rfl, rfl, rfl⟩⟩

/-! ### The invariant outside and inside a window -/

/-- With no command in flight and no initialisation window the invariant is about LMEM, the staged writes and the error
state. -/
theorem State.inv_of_idle {s : State} (hp : s.phase = .idle) (hwf : Memory.wf s.lmem) (hstaged : s.staged = [])
    (herr : s.lerr ≠ .ok → s.ferr ≠ .ok) : s.Inv :=
  ⟨hwf, hstaged, herr, .inl (by simp [State.snapshot, hp]), fun hw => by simp [State.inWindow, hp] at hw⟩

/-! ### A completion -/

/-- Whatever a command's body answers, its end meets the invariant: FERR records every code that LERR does. -/
theorem State.finish_inv {s : State} (hwf : Memory.wf s.lmem) (r : Except ResultCode (List Write)) :
    (s.finish r).Inv := by
  obtain ⟨hferr, -, -, hphase, hstaged, -⟩ := s.finish_fields r
  refine State.inv_of_idle hphase (State.finish_wf hwf r) hstaged fun hlerr => ?_
  rw [hferr]
  by_cases hok : s.ferr = .ok
  · rwa [if_pos ⟨hlerr, hok⟩]
  · rwa [if_neg fun h => hok h.2]

/-! ### The host's turn while BUSY = 0 -/

/-- A port write keeps LMEM's canonical form. -/
theorem State.portWrite_wf {s : State} (h : Memory.wf s.lmem) (data : Word) (r : PortReg) :
    Memory.wf (s.portWrite data r).lmem := by
  cases r with
  | id | status | unassigned => exact h
  | ctrl => simp only [State.portWrite]; split <;> exact h
  | cmd | decX | decY | decO | decMk | reg i => simp only [State.portWrite, State.unlessBusy]; split <;> exact h
  | lmem v =>
    simp only [State.portWrite, State.unlessBusy]
    split
    · exact h
    · exact State.writeWindow_wf v data h

/-- A port write while BUSY = 0 accepts a command, with the snapshot of the DEC registers as they stand, or leaves the core
idle. -/
theorem State.portWrite_idle_phase {s : State} (hp : s.phase = .idle) (data : Word) (r : PortReg) :
    (s.portWrite data r).phase = .idle ∨ ∃ f, (s.portWrite data r).phase = .running f ∧
      f.params = (s.portWrite data r).dec := by
  have hb := State.busy_of_idle hp
  cases r with
  | cmd =>
    have haccept : s.portWrite data .cmd = s.accept data := State.unlessBusy_idle hb _
    rw [haccept]
    exact .inr ⟨_, rfl, rfl⟩
  | ctrl => simp only [State.portWrite]; split <;> exact .inl hp
  | id | status | unassigned => exact .inl hp
  | decX | decY | decO | decMk | reg i | lmem v =>
    simp only [State.portWrite, State.unlessBusy_idle hb]
    exact .inl hp

theorem State.hostTurn_idle_inv {s : State} (hinv : s.Inv) (hp : s.phase = .idle) (hr : ∀ rest, s.host ≠ .reset :: rest) :
    s.hostTurn.Inv := by
  obtain ⟨hwf, hstaged, herr, -, -⟩ := hinv
  rcases State.hostTurn_idle hp hr with ⟨off, w, rest, -, hturn⟩ | ⟨-, hlmem, -, hphase, hst, hlerr, hferr, -⟩
  · have hwf' := State.portWrite_wf hwf w (portReg off)
    have hstaged' : (s.portWrite w (portReg off)).staged = [] := (s.portWrite_staged w _).trans hstaged
    have herr' : (s.portWrite w (portReg off)).lerr ≠ .ok → (s.portWrite w (portReg off)).ferr ≠ .ok := by
      rcases State.portWrite_idle_flags (State.busy_of_idle hp) w (portReg off) with ⟨hlerr, hferr, -⟩ | ⟨-, -, hclear⟩
      · rwa [hlerr, hferr]
      · simp [hclear]
    rw [hturn]
    rcases State.portWrite_idle_phase hp w (portReg off) with hidle | ⟨f, hrun, hparams⟩
    · exact State.inv_of_idle hidle hwf' hstaged' herr'
    · exact ⟨hwf', hstaged', herr', .inr (by simp [State.snapshot, hrun, hparams]),
        fun hw => by simp [State.inWindow, hrun] at hw⟩
  · exact State.inv_of_idle (hphase.trans hp) (hlmem ▸ hwf) (hst.trans hstaged) (by rwa [hlerr, hferr])

/-! ### The host's turn inside a window -/

/-- The passing of a window keeps the snapshot. -/
theorem State.tick_snapshot (s : State) : s.tick.snapshot = s.snapshot := by
  cases hp : s.phase with
  | idle => simp [State.tick, hp]
  | init n => rw [State.snapshot_of_window (n := n) (by simp [State.tick, hp])]; simp [State.snapshot, hp]
  | running f => simp [State.tick, State.snapshot, hp]

/-- No initialisation window opens as a window passes. -/
theorem State.inWindow_of_tick {s : State} (h : s.tick.inWindow = true) : s.inWindow = true := by
  cases hp : s.phase with
  | idle => simpa [State.tick, hp] using h
  | init n => simp [State.inWindow, hp]
  | running f => simp [State.tick, State.inWindow, hp] at h

theorem State.snapshot_congr {s t : State} (h : s.phase = t.phase) : s.snapshot = t.snapshot := by
  simp only [State.snapshot, h]

theorem State.inWindow_congr {s t : State} (h : s.phase = t.phase) : s.inWindow = t.inWindow := by
  simp only [State.inWindow, h]

theorem State.hostTurn_tick_inv {s : State} (hinv : s.Inv) (hb : s.busy = true) (hr : ∀ rest, s.host ≠ .reset :: rest) :
    s.hostTurn.tick.Inv := by
  obtain ⟨hwf, hstaged, herr, hsnap, hclean⟩ := hinv
  obtain ⟨hg, hlmem, hdec, hphase, hst, hflags⟩ := State.hostTurn_busy hb hr
  -- LERR and FERR are kept, or cleared together
  have herrors : (s.hostTurn.lerr = s.lerr ∧ s.hostTurn.ferr = s.ferr) ∨
      (s.hostTurn.lerr = .ok ∧ s.hostTurn.ferr = .ok) := by
    rcases hflags with ⟨hlerr, hferr, -⟩ | ⟨-, hlerr, hferr, -⟩
    · exact .inl ⟨hlerr, hferr⟩
    · exact .inr ⟨hlerr, hferr⟩
  simp only [State.Inv, State.snapshotAgrees, State.windowClean, State.tick_lmem, State.tick_staged, State.tick_lerr,
    State.tick_ferr, State.tick_dec, State.tick_g, State.tick_snapshot, State.snapshot_congr hphase, hg, hlmem, hdec, hst]
  refine ⟨hwf, hstaged, ?_, hsnap, fun hw => ?_⟩
  · rcases herrors with ⟨hlerr, hferr⟩ | ⟨hlerr, -⟩
    · rwa [hlerr, hferr]
    · simp [hlerr]
  · obtain ⟨hgz, hmz, hdz, hlz, hfz⟩ := hclean (State.inWindow_congr hphase ▸ State.inWindow_of_tick hw)
    rcases herrors with ⟨hlerr, hferr⟩ | ⟨hlerr, hferr⟩
    · exact ⟨hgz, hmz, hdz, hlerr.trans hlz, hferr.trans hfz⟩
    · exact ⟨hgz, hmz, hdz, hlerr, hferr⟩

/-- Settles O54: a step is a reset, the host's turn outside or inside a window, or a completion, and each keeps it. -/
theorem stepKeepsInv : Obligations.StepKeepsInv := by
  intro s t hinv hstep
  rcases step_cases s with ⟨rest, -, hs⟩ | ⟨hr, ⟨hp, hs⟩ | ⟨-, hb, hs⟩ | ⟨f, r, -, -, -, hs⟩⟩
  · cases hs.symm.trans hstep
    exact s.resetBy_inv rest
  · cases hs.symm.trans hstep
    exact State.hostTurn_idle_inv hinv hp hr
  · cases hs.symm.trans hstep
    exact State.hostTurn_tick_inv hinv hb hr
  · cases hs.symm.trans hstep
    obtain ⟨hwf, -⟩ := hinv
    exact State.finish_inv (s := s.noTransaction) hwf r

end Sys2Proof.Machine
end

section
/-! PROOFS. The commands' bodies: the codes they end with and the writes they stage; from these, completion and the frames of
all commands (60_exceptions.md R261 to R264; 42_decoder.md R193, R200, R210). -/

namespace Sys2Proof.Machine

/-! ### What a body answers -/

/-- The body of a command: what it computes from its operands. -/
def commandBody (s : State) : Instr → Except ResultCode (List Write)
  | .gadd rd ra rb => .ok [.reg rd (gadd s.g[ra] s.g[rb])]
  | .gmul rd ra rb => .ok [.reg rd (gmul s.g[ra] s.g[rb])]
  | .ginv rd ra => match ginv s.g[ra] with
    | some v => .ok [.reg rd v]
    | none => .error .zeroInverse
  | .peval rd rx deg base =>
    if runsPast base (deg.toNat + 1) then .error .addrRange
    else .ok [.reg rd (horner (s.loadRun base (deg.toNat + 1)) s.g[rx])]
  | .dece => deceBody s
  | .decbw => decbwBody s
  | .gldi rd imm => .ok [.reg rd imm]
  | .gld rd addr => .ok [.reg rd (s.loadByte addr.toNat)]
  | .gst rs addr => .ok [.mem addr.toNat s.g[rs]]

/-- Every command's meaning is the end of its body. -/
theorem exec_eq_finish_commandBody (i : Instr) (s : State) : exec i s = .next (s.finish (commandBody s i)) := by
  cases i <;> rfl

/-- A write of the command's: to its destination register, or to a byte it stores to. -/
def Write.isOf (s : State) (i : Instr) : Write → Prop
  | .reg r _ => destReg i = some r
  | .mem a _ => a ∈ storeAddrs s i

/-- What a command's body may answer: writes of its own, or an error code of its own list. -/
def AnswersAsAllowed (s : State) (i : Instr) : Except ResultCode (List Write) → Prop
  | .ok ws => ∀ w ∈ ws, w.isOf s i
  | .error c => c ≠ .ok ∧ c ∈ codesOf i

/-- A write of the command's alone. -/
theorem answersAsAllowed_singleton {s : State} {i : Instr} {w : Write} (h : w.isOf s i) :
    AnswersAsAllowed s i (.ok [w]) := by
  simpa [AnswersAsAllowed] using h

/-- The outputs of a decode are writes of the decode's (42_decoder.md R193). -/
theorem answersAsAllowed_outputs {s : State} {i : Instr} (hi : i ∈ [Instr.dece, Instr.decbw]) {d : DecodeInput}
    (hd : s.decodeCommon = .ok d) (p : List Elem) : AnswersAsAllowed s i (.ok (d.outputs p)) := by
  obtain ⟨-, -, -, -, -, -, -, -, hk, hob⟩ := State.decodeCommon_ok hd
  have haddrs : storeAddrs s i = (List.range d.k).map fun j => d.obase.toNat + j := by
    rcases List.mem_pair.1 hi with rfl | rfl <;> simp only [storeAddrs, hk, hob]
  intro w hw
  obtain ⟨j, hj, rfl⟩ := List.mem_map.1 hw
  simp only [Write.isOf, haddrs]
  exact List.mem_map_of_mem hj

/-- A failed check of a decode ends with one of the decode's codes (42_decoder.md R192). -/
theorem answersAsAllowed_check {s : State} {i : Instr} (hi : i ∈ [Instr.dece, Instr.decbw]) {c : ResultCode}
    (hc : s.decodeCommon = .error c) : AnswersAsAllowed s i (.error c) := by
  rcases List.mem_pair.1 hi with rfl | rfl <;>
    rcases State.decodeCommon_error hc with rfl | rfl | rfl <;> simp [AnswersAsAllowed, codesOf]

/-- DECE's system always has a solution: its first K points are distinct (42_decoder.md R200). -/
theorem exists_erasurePoly {s : State} {d : DecodeInput} (hd : s.decodeCommon = .ok d) :
    ∃ p, erasurePoly (d.x.take d.k) (d.y.take d.k) d.k = some p := by
  obtain ⟨-, hk, -, hlen, -, hx, -⟩ := State.decodeCommon_ok hd
  have hxk : (d.x.take d.k).length = d.k := by simp [hk]
  obtain ⟨p, hp, -⟩ := erasurePoly_spec (xs := d.x.take d.k) (ys := d.y.take d.k) (hx.sublist (List.take_sublist _ _))
    (by simp [hlen])
  exact ⟨p, by rwa [hxk] at hp⟩

theorem deceBody_answersAsAllowed (s : State) : AnswersAsAllowed s .dece (deceBody s) := by
  rcases deceBody_cases s with ⟨c, -, hc, hbody⟩ | ⟨d, p, hd, -, hbody⟩ | ⟨d, hd, hnone, -⟩
  · exact hbody ▸ answersAsAllowed_check (by simp) hc
  · exact hbody ▸ answersAsAllowed_outputs (by simp) hd p
  · obtain ⟨p, hp⟩ := exists_erasurePoly hd
    cases hnone.symm.trans hp

theorem decbwBody_answersAsAllowed (s : State) : AnswersAsAllowed s .decbw (decbwBody s) := by
  rcases decbwBody_cases s with ⟨c, -, hc, hbody⟩ | ⟨d, p, hd, -, hbody⟩ | ⟨d, -, -, hbody⟩
  · exact hbody ▸ answersAsAllowed_check (by simp) hc
  · exact hbody ▸ answersAsAllowed_outputs (by simp) hd p
  · exact hbody ▸ ⟨nofun, by simp [codesOf]⟩

/-- Every body stages writes of its command, or ends with an error code of its command. -/
theorem commandBody_answersAsAllowed (s : State) (i : Instr) : AnswersAsAllowed s i (commandBody s i) := by
  cases i with
  | gadd rd ra rb => exact answersAsAllowed_singleton rfl
  | gmul rd ra rb => exact answersAsAllowed_singleton rfl
  | ginv rd ra =>
    simp only [commandBody]
    split
    · exact answersAsAllowed_singleton rfl
    · exact ⟨nofun, by simp [codesOf]⟩
  | peval rd rx deg base =>
    simp only [commandBody]
    split
    · exact ⟨nofun, by simp [codesOf]⟩
    · exact answersAsAllowed_singleton rfl
  | dece => exact deceBody_answersAsAllowed s
  | decbw => exact decbwBody_answersAsAllowed s
  | gldi rd imm => exact answersAsAllowed_singleton rfl
  | gld rd addr => exact answersAsAllowed_singleton rfl
  | gst rs addr => exact answersAsAllowed_singleton (by simp [Write.isOf, storeAddrs])

/-- How a command ends: with an error code of its own, or with OK and writes of its own. -/
theorem exec_cases {i : Instr} {s t : State} (h : exec i s = .next t) :
    (∃ c, c ≠ .ok ∧ c ∈ codesOf i ∧ t = s.complete c) ∨
    ∃ ws : List Write, (∀ w ∈ ws, w.isOf s i) ∧ t = (s.stage ws).complete .ok := by
  have hanswer := commandBody_answersAsAllowed s i
  obtain rfl : s.finish (commandBody s i) = t := Host.Outcome.next.inj ((exec_eq_finish_commandBody i s).symm.trans h)
  revert hanswer
  cases commandBody s i with
  | error c => exact fun ⟨hne, hc⟩ => .inl ⟨c, hne, hc, s.finish_error c⟩
  | ok ws => exact fun hws => .inr ⟨ws, hws, s.finish_ok ws⟩

/-! ### Completion -/

theorem ok_mem_codesOf (i : Instr) : ResultCode.ok ∈ codesOf i := by
  cases i <;> exact List.mem_cons_self

/-- Settles O25: the answer is the end of the command's body, which records its code and leaves the core idle. -/
theorem everyCommandCompletes : Obligations.EveryCommandCompletes := by
  intro i s
  have hexec := exec_eq_finish_commandBody i s
  obtain ⟨-, -, -, hphase, hstaged, -⟩ := s.finish_fields (commandBody s i)
  refine ⟨_, hexec, ?_, State.busy_of_idle hphase, hstaged⟩
  rcases exec_cases hexec with ⟨c, -, hc, ht⟩ | ⟨ws, -, ht⟩
  · rw [ht, State.complete_lerr]
    exact hc
  · rw [ht, State.complete_lerr]
    exact ok_mem_codesOf i

/-- Settles O27: a completion records its code in FERR only where it is the first error. -/
theorem completionKeepsTheFirstError : Obligations.CompletionKeepsTheFirstError := by
  intro i s t hexec
  obtain rfl : s.finish (commandBody s i) = t := Host.Outcome.next.inj ((exec_eq_finish_commandBody i s).symm.trans hexec)
  obtain ⟨hferr, -⟩ := s.finish_fields (commandBody s i)
  refine ⟨fun hne hok => hferr.trans (if_pos ⟨hne, hok⟩), fun h => hferr.trans (if_neg ?_)⟩
  rintro ⟨hne, hok⟩
  exact h.elim hne fun hferr => hferr hok

/-! ### The frames -/

/-- Committing writes leaves a register alone that none of them writes. -/
theorem foldl_applyWrite_g_frame {ws : List Write} {r : RegIdx} (h : ∀ v, Write.reg r v ∉ ws) (s : State) :
    (ws.foldl State.applyWrite s).g[r] = s.g[r] := by
  induction ws generalizing s with
  | nil => rfl
  | cons w ws ih =>
    rw [List.foldl_cons, ih fun v hv => h v (List.mem_cons_of_mem _ hv)]
    cases w with
    | mem a v => rfl
    | reg i v =>
      have hne : i ≠ r := fun heq => h v (heq ▸ List.mem_cons_self)
      exact Vector.getElem_set_ne i.isLt r.isLt (Fin.val_ne_of_ne hne)

/-- Committing writes leaves a byte alone that none of them writes. -/
theorem foldl_applyWrite_lmem_frame {ws : List Write} {a : Nat} (h : ∀ v, Write.mem a v ∉ ws) (s : State) :
    Memory.read a (ws.foldl State.applyWrite s).lmem = Memory.read a s.lmem := by
  induction ws generalizing s with
  | nil => rfl
  | cons w ws ih =>
    rw [List.foldl_cons, ih fun v hv => h v (List.mem_cons_of_mem _ hv)]
    cases w with
    | reg i v => rfl
    | mem b v =>
      have hne : a ≠ b := fun heq => h v (heq ▸ List.mem_cons_self)
      exact Memory.read_write_of_ne hne _ _

/-- Settles O28: the writes committed are the command's, and an error code commits none. -/
theorem commandsChangeOnlyTheirDestination : Obligations.CommandsChangeOnlyTheirDestination := by
  intro i s t hexec r hr
  rcases exec_cases hexec with ⟨c, hc, -, rfl⟩ | ⟨ws, hws, rfl⟩
  · rw [State.complete_error_g c s hc]
  · exact foldl_applyWrite_g_frame (fun v hv => hr (hws _ hv)) (s.stage ws)

/-- Settles O29: the writes committed are the command's, and an error code commits none. -/
theorem commandsChangeOnlyTheirBytes : Obligations.CommandsChangeOnlyTheirBytes := by
  intro i s t hexec a ha
  rcases exec_cases hexec with ⟨c, hc, -, rfl⟩ | ⟨ws, hws, rfl⟩
  · rw [State.complete_error_lmem c s hc]
  · exact foldl_applyWrite_lmem_frame (fun v hv => ha (hws _ hv)) (s.stage ws)

/-- Settles O30: a completion sets none of these fields. -/
theorem commandsKeepTheOtherRegisters : Obligations.CommandsKeepTheOtherRegisters := by
  intro i s t hexec
  rcases exec_cases hexec with ⟨c, -, -, rfl⟩ | ⟨ws, -, rfl⟩
  · exact ⟨s.complete_dec c, s.complete_ovr c, s.complete_prdata c, s.complete_pready c, s.complete_host c⟩
  · simp

end Sys2Proof.Machine
end

section
/-! PROOFS. Single steps: the completion of the latched word, legal or not, and what a step in a window or outside leaves
unchanged (30_encoding.md R110, R111, R117; 20_memory.md R76, R81). -/

namespace Sys2Proof.Machine

/-! ### Completion steps -/

/-- Settles O32: each case of a step answers a next state. -/
theorem noStepStops : Obligations.NoStepStops := by
  intro s
  rcases step_cases s with ⟨rest, -, h⟩ | ⟨-, ⟨-, h⟩ | ⟨-, -, h⟩ | ⟨f, r, -, -, -, h⟩⟩
  · exact ⟨_, h⟩
  · exact ⟨_, h⟩
  · exact ⟨_, h⟩
  · exact ⟨_, h⟩

theorem runLatched_of_instr {w : Word} {i : Instr} (h : decode w = .instr i) (s : State) : runLatched w s = exec i s := by
  simp only [runLatched, h]

theorem runLatched_of_illegal {w : Word} {why : IllegalReason} (h : decode w = .illegal why) (s : State) :
    runLatched w s = .next (s.complete .illegal) := by
  simp only [runLatched, h, State.completeIllegal]

/-- Settles O31: the step runs the latched word, which is the command's. -/
theorem stepRunsTheLatchedCommand : Obligations.StepRunsTheLatchedCommand := by
  intro s f i hp hw hr hdec
  rw [step_of_completing hr hp hw, runLatched_of_instr hdec]
  rfl

/-- A reserved opcode is none of the assigned ones (R111). -/
theorem not_mem_assignedOpcodes {o : BitVec 6}
    (h : o.toNat = 0 ∨ (0x07 ≤ o.toNat ∧ o.toNat ≤ 0x0F) ∨ 0x13 ≤ o.toNat) : o ∉ assignedOpcodes :=
  (by decide : ∀ o : BitVec 6, (o.toNat = 0 ∨ (0x07 ≤ o.toNat ∧ o.toNat ≤ 0x0F) ∨ 0x13 ≤ o.toNat) →
    o ∉ assignedOpcodes) o h

/-- Settles O4: the word is illegal, by its opcode or its reserved bits, and an illegal word's completion is ILLEGAL's. -/
theorem illegalWordsCompleteWithIllegal : Obligations.IllegalWordsCompleteWithIllegal := by
  intro w hw s p hp hr
  have hillegal : ∃ why, decode w = .illegal why := by
    rcases hw with hopc | ⟨hopc | hopc, hbits⟩ | ⟨hopc, hbits⟩ | ⟨hopc | hopc, hbits⟩ | ⟨hopc, hbits⟩ |
      ⟨hopc | hopc, hbits⟩
    · exact ⟨_, decode_reserved (not_mem_assignedOpcodes hopc)⟩
    · exact ⟨_, decode_illegal_of_formatR (decode_gadd hopc) hbits⟩
    · exact ⟨_, decode_illegal_of_formatR (decode_gmul hopc) hbits⟩
    · exact ⟨_, (decode_ginv hopc).trans (unlessReserved_of_ne (mt (reservedU_iff w).1 hbits))⟩
    · exact ⟨_, (decode_dece hopc).trans (unlessReserved_of_ne (mt (reservedD_iff w).1 hbits))⟩
    · exact ⟨_, (decode_decbw hopc).trans (unlessReserved_of_ne (mt (reservedD_iff w).1 hbits))⟩
    · exact ⟨_, (decode_gldi hopc).trans (unlessReserved_of_ne (mt (reservedI_iff w).1 hbits))⟩
    · exact ⟨_, decode_illegal_of_formatM (decode_gld hopc) hbits⟩
    · exact ⟨_, decode_illegal_of_formatM (decode_gst hopc) hbits⟩
  obtain ⟨why, hdec⟩ := hillegal
  rw [step_of_completing hr hp rfl, runLatched_of_illegal hdec, State.complete_of_error _ (c := .illegal) nofun]
  rfl

/-! ### What a step leaves unchanged -/

/-- Settles O42: the host's turn in a window keeps all of this, and the window's passing changes the time left. -/
theorem busyWindowKeepsTheOperands : Obligations.BusyWindowKeepsTheOperands := by
  intro s t f hp hw hr hstep
  have hb : s.busy = true := by simp [State.busy, hp]
  obtain ⟨hg, hlmem, hdec, hphase, -, -⟩ := State.hostTurn_busy hb hr
  cases (step_of_waiting hr hp hw).symm.trans hstep
  exact ⟨by simpa using hg, by simpa using hlmem, by simpa using hdec, by simp [State.tick, hphase, hp]⟩

/-- A port write while BUSY = 0 changes G and LMEM only at the offsets of Gi and of the LMEM window. -/
theorem State.portWrite_idle_frame {s : State} (hb : s.busy = false) (w : Word) {r : PortReg}
    (hreg : ∀ i, r ≠ .reg i) (hlmem : ∀ v, r ≠ .lmem v) :
    (s.portWrite w r).g = s.g ∧ (s.portWrite w r).lmem = s.lmem := by
  cases r with
  | reg i => exact absurd rfl (hreg i)
  | lmem v => exact absurd rfl (hlmem v)
  | ctrl => simp only [State.portWrite]; split <;> exact ⟨rfl, rfl⟩
  | id | status | unassigned => exact ⟨rfl, rfl⟩
  | cmd | decX | decY | decO | decMk => simp [State.portWrite, State.unlessBusy_idle hb]

/-- Settles O49: of a step's cases, the host's turn in a window changes neither, and outside it only such a write does. -/
theorem gAndLmemChangeOnlyByCommandsAndHostWrites : Obligations.GAndLmemChangeOnlyByCommandsAndHostWrites := by
  intro s t hstep hchange
  rcases step_cases s with ⟨rest, hh, -⟩ | ⟨hr, ⟨hp, hs⟩ | ⟨-, hb, hs⟩ | ⟨f, r, hp, hw, -, -⟩⟩
  · exact .inl ⟨rest, hh⟩
  · cases hs.symm.trans hstep
    rcases State.hostTurn_idle hp hr with ⟨off, w, rest, hh, hturn⟩ | ⟨hg, hlmem, -⟩
    · refine .inr (.inr ⟨hp, off, w, rest, hh, ?_⟩)
      by_contra hother
      push Not at hother
      obtain ⟨hreg, hwin⟩ := hother
      obtain ⟨hg, hlmem⟩ := State.portWrite_idle_frame (State.busy_of_idle hp) w hreg hwin
      rw [hturn] at hchange
      exact hchange.elim (· hg) (· hlmem)
    · exact (hchange.elim (· hg) (· hlmem)).elim
  · cases hs.symm.trans hstep
    obtain ⟨hg, hlmem, -⟩ := State.hostTurn_busy hb hr
    simp only [State.tick_g, State.tick_lmem] at hchange
    exact (hchange.elim (· hg) (· hlmem)).elim
  · exact .inr (.inl ⟨f, hp, hw⟩)

end Sys2Proof.Machine
end

section
/-! PROOFS. Runs through a BUSY window: the initialisation window ends, an accepted command completes, and a host that polls
reads its code (70_reset_and_hazards.md R302, R310; 60_exceptions.md R262; 30_encoding.md R116). -/

namespace Sys2Proof.Machine

/-! ### Runs in which no reset comes -/

theorem State.no_reset_next {s : State} (h : HostEvent.reset ∉ s.host) (rest : List HostEvent) :
    s.host ≠ .reset :: rest := fun hh => h (hh ▸ List.mem_cons_self)

/-- The host's turn brings no reset into its list. -/
theorem State.reset_not_mem_hostTurn {s : State} (h : HostEvent.reset ∉ s.host) : HostEvent.reset ∉ s.hostTurn.host := by
  cases hh : s.host with
  | nil => simp [State.hostTurn_nil hh, hh]
  | cons e rest =>
    have hrest : HostEvent.reset ∉ rest := fun hmem => h (hh ▸ List.mem_cons_of_mem _ hmem)
    cases e with
    | read off => rwa [State.hostTurn_read hh]
    | write off w => rwa [State.hostTurn_write hh]
    | poll => cases hb : s.busy <;> simp [State.hostTurn_poll hh, hb, hrest]
    | reset => exact absurd hh (State.no_reset_next h rest)

/-- Settles O43: the window's steps count its time down, and the step after them is the completion. -/
theorem everyAcceptedCommandCompletes : Obligations.EveryAcceptedCommandCompletes := by
  intro s f hp hreset
  obtain ⟨cl, p, n⟩ := f
  induction n generalizing s with
  | zero =>
    obtain ⟨r, hrun⟩ := runLatched_eq_finish cl s.noTransaction
    obtain ⟨-, -, -, hphase, hstaged, -⟩ := s.noTransaction.finish_fields r
    exact ⟨_, core_run_succ ((step_of_completing (State.no_reset_next hreset) hp rfl).trans hrun) 0, hphase, hstaged⟩
  | succ n ih =>
    have hr := State.no_reset_next hreset
    have hstep := step_of_waiting hr hp n.succ_ne_zero
    obtain ⟨-, -, -, hphase, -⟩ := State.hostTurn_busy (by simp [State.busy, hp]) hr
    rw [core_run_succ hstep]
    exact ih _ (by simpa using State.reset_not_mem_hostTurn hreset) (by simp [State.tick, hphase, hp])

/-! ### The initialisation window (R302) -/

/-- What the steps of the initialisation window keep: G, LMEM and DEC_*, codes that are OK, and with no host OVR too. -/
structure State.KeptInWindow (s t : State) : Prop where
  g : t.g = s.g
  lmem : t.lmem = s.lmem
  dec : t.dec = s.dec
  lerr : s.lerr = .ok → t.lerr = .ok
  ferr : s.ferr = .ok → t.ferr = .ok
  quiet : s.host = [] → t.host = [] ∧ t.ovr = s.ovr

theorem State.KeptInWindow.refl (s : State) : s.KeptInWindow s := ⟨rfl, rfl, rfl, id, id, fun h => ⟨h, rfl⟩⟩

theorem State.KeptInWindow.trans {s t u : State} (hst : s.KeptInWindow t) (htu : t.KeptInWindow u) : s.KeptInWindow u where
  g := htu.g.trans hst.g
  lmem := htu.lmem.trans hst.lmem
  dec := htu.dec.trans hst.dec
  lerr h := htu.lerr (hst.lerr h)
  ferr h := htu.ferr (hst.ferr h)
  quiet h := by
    obtain ⟨hhost, hovr⟩ := hst.quiet h
    obtain ⟨hhost', hovr'⟩ := htu.quiet hhost
    exact ⟨hhost', hovr'.trans hovr⟩

/-- The host's turn in a BUSY window keeps all of that, and so does the window's passing. -/
theorem State.hostTurn_tick_keptInWindow {s : State} (hb : s.busy = true) (hr : ∀ rest, s.host ≠ .reset :: rest) :
    s.KeptInWindow s.hostTurn.tick := by
  obtain ⟨hg, hlmem, hdec, -, -, hflags⟩ := State.hostTurn_busy hb hr
  refine ⟨by simpa using hg, by simpa using hlmem, by simpa using hdec, fun hok => ?_, fun hok => ?_,
    fun hh => by simp [State.hostTurn_nil hh, hh]⟩
  · rcases hflags with ⟨hlerr, -⟩ | ⟨-, hlerr, -⟩ <;> simp [hlerr, hok]
  · rcases hflags with ⟨-, hferr, -⟩ | ⟨-, -, hferr, -⟩ <;> simp [hferr, hok]

theorem State.hostTurn_tick_phase_of_init {s : State} {n : Nat} (hp : s.phase = .init n)
    (hr : ∀ rest, s.host ≠ .reset :: rest) : s.hostTurn.tick.phase = Phase.window n := by
  obtain ⟨-, -, -, hphase, -⟩ := State.hostTurn_busy (by simp [State.busy, hp]) hr
  simp [State.tick, hphase, hp]

/-- A window of n steps is over after n steps. -/
theorem run_window {n : Nat} {s : State} (hp : s.phase = Phase.window n) (hreset : HostEvent.reset ∉ s.host) :
    ∃ t, core.run n s = .next t ∧ t.busy = false ∧ s.KeptInWindow t := by
  induction n generalizing s with
  | zero => exact ⟨s, rfl, State.busy_of_idle hp, .refl s⟩
  | succ n ih =>
    have hr := State.no_reset_next hreset
    have hstep := step_of_init hr hp
    have hkept := State.hostTurn_tick_keptInWindow ((State.busy_of_window hp).2 n.succ_ne_zero) hr
    obtain ⟨t, hrun, hbusy, hkept'⟩ := ih (State.hostTurn_tick_phase_of_init hp hr)
      (by simpa using State.reset_not_mem_hostTurn hreset)
    exact ⟨t, (core_run_succ hstep n).trans hrun, hbusy, hkept.trans hkept'⟩

/-- One step of the initialisation window, by what the host writes in it. -/
theorem step_of_init_cases {s : State} {n : Nat} (hp : s.phase = .init n) (hr : ∀ rest, s.host ≠ .reset :: rest) :
    ∃ t : State, step s = .next t ∧ t.phase = Phase.window n ∧ t.g = s.g ∧ t.lmem = s.lmem ∧ t.dec = s.dec ∧
      (s.writesClear → t.lerr = .ok ∧ t.ferr = .ok ∧ t.ovr = false) ∧
      (s.writesProtected → t.lerr = s.lerr ∧ t.ferr = s.ferr ∧ t.ovr = true) ∧
      (¬ s.writesClear → ¬ s.writesProtected → t.lerr = s.lerr ∧ t.ferr = s.ferr ∧ t.ovr = s.ovr) := by
  have hb : s.busy = true := by simp [State.busy, hp]
  have hwin : s.hostInBusyWindow := by simp [State.hostInBusyWindow, State.inBusyWindow, hp]
  have hstep := step_of_init hr hp
  obtain ⟨hg, hlmem, hdec, -, -, hflags⟩ := State.hostTurn_busy hb hr
  refine ⟨_, hstep, State.hostTurn_tick_phase_of_init hp hr, by simpa using hg, by simpa using hlmem, by simpa using hdec,
    ?_, ?_, fun hnclear hnprot => ?_⟩
  · rintro ⟨off, w, rest, hh, hoff, hbit⟩
    obtain ⟨hclear, -⟩ := ctrlClearsTheErrorState s off w rest hoff hh (.inr hwin)
    rw [Host.Outcome.next.inj (hstep.symm.trans (hclear hbit))]
    exact ⟨rfl, rfl, rfl⟩
  · rintro ⟨off, w, rest, hh, hprot⟩
    have hdrop := protectedWritesAreDroppedWhileBusy s off w rest hwin hh hprot
    rw [Host.Outcome.next.inj (hstep.symm.trans hdrop)]
    exact ⟨rfl, rfl, rfl⟩
  · rcases hflags with ⟨hlerr, hferr, hovr | ⟨-, hprot⟩⟩ | ⟨hclear, -⟩
    · exact ⟨by simpa using hlerr, by simpa using hferr, by simpa using hovr⟩
    · exact absurd hprot hnprot
    · exact absurd hclear hnclear

/-- Settles O52: the window's step by cases, and its end by induction on the steps left, from such a state and from reset. -/
theorem initialisationWindowEnds : Obligations.InitialisationWindowEnds := by
  refine ⟨fun s n hp hr => step_of_init_cases hp hr, fun s n hp hreset => ?_, ?_⟩
  · obtain ⟨t, hrun, hbusy, hkept⟩ := run_window (n := n + 1) hp hreset
    exact ⟨t, hrun, hbusy, hkept.g, hkept.lmem, hkept.dec, hkept.lerr, hkept.ferr⟩
  · obtain ⟨t, hrun, hbusy, hkept⟩ := run_window (s := State.reset) rfl List.not_mem_nil
    obtain ⟨-, hovr⟩ := hkept.quiet rfl
    exact ⟨t, hrun, hbusy, hkept.g, hkept.lmem, hkept.dec, hkept.lerr rfl, hkept.ferr rfl, hovr⟩

/-! ### A command does not look at the port, the events to come or the time left of its window -/

/-- The state with another phase, other port outputs and other events to come. -/
def State.withPort (ph : Phase) (data : Word) (ready : Bool) (events : List HostEvent) (s : State) : State :=
  { s with phase := ph, prdata := data, pready := ready, host := events }

section
variable (ph : Phase) (data : Word) (ready : Bool) (events : List HostEvent)

theorem foldl_applyWrite_withPort (ws : List Write) (s : State) :
    ws.foldl State.applyWrite (s.withPort ph data ready events) =
      (ws.foldl State.applyWrite s).withPort ph data ready events := by
  induction ws generalizing s with
  | nil => rfl
  | cons w ws ih =>
    have hw : (s.withPort ph data ready events).applyWrite w = (s.applyWrite w).withPort ph data ready events := by
      cases w <;> rfl
    rw [List.foldl_cons, hw, ih, List.foldl_cons]

theorem State.complete_withPort (c : ResultCode) (s : State) :
    (s.withPort ph data ready events).complete c = (s.complete c).withPort .idle data ready events := by
  by_cases hc : c = .ok
  · subst hc
    have hcommit : (s.withPort ph data ready events).commit = s.commit.withPort ph data ready events :=
      foldl_applyWrite_withPort ph data ready events s.staged s
    rw [State.complete_of_ok, State.complete_of_ok, hcommit]
    rfl
  · rw [State.complete_of_error _ hc, State.complete_of_error _ hc]
    rfl

theorem State.finish_withPort (r : Except ResultCode (List Write)) (s : State) :
    (s.withPort ph data ready events).finish r = (s.finish r).withPort .idle data ready events := by
  cases r with
  | error c => exact State.complete_withPort ph data ready events c s
  | ok ws => exact State.complete_withPort ph data ready events .ok (s.stage ws)

/-- The phase matters to a body only through the parameters of a decode. -/
theorem commandBody_withPort {s : State} (h : (s.withPort ph data ready events).operands = s.operands) (i : Instr) :
    commandBody (s.withPort ph data ready events) i = commandBody s i := by
  have hcommon : (s.withPort ph data ready events).decodeCommon = s.decodeCommon := by
    rw [State.decodeCommon_eq, State.decodeCommon_eq, h]
    rfl
  cases i with
  | dece => simp only [commandBody, deceBody, hcommon]
  | decbw => simp only [commandBody, decbwBody, hcommon]
  | gadd | gmul | ginv | peval | gldi | gld | gst => rfl

theorem runLatched_withPort {s u : State} (h : (s.withPort ph data ready events).operands = s.operands) {w : Word}
    (hu : runLatched w s = .next u) :
    runLatched w (s.withPort ph data ready events) = .next (u.withPort .idle data ready events) := by
  cases hdec : decode w with
  | instr i =>
    rw [runLatched_of_instr hdec, exec_eq_finish_commandBody] at hu ⊢
    cases hu
    rw [commandBody_withPort ph data ready events h, State.finish_withPort]
  | illegal why =>
    rw [runLatched_of_illegal hdec] at hu ⊢
    cases hu
    rw [State.complete_withPort]

end

/-! ### A host that polls (30_encoding.md R116) -/

/-- The steps of a command's window in which the host polls: the port's outputs change, and the time left. -/
theorem run_polling {n : Nat} {s : State} {cl : Word} {p : Params} {rest : List HostEvent}
    (hp : s.phase = .running { cl := cl, params := p, wait := n }) (hh : s.host = .poll :: rest) :
    ∃ data ready, core.run n s =
      .next (s.withPort (.running { cl := cl, params := p, wait := 0 }) data ready (.poll :: rest)) := by
  induction n generalizing s with
  | zero => exact ⟨s.prdata, s.pready, congrArg _ (by rw [← hp, ← hh]; rfl)⟩
  | succ n ih =>
    have hb : s.busy = true := by simp [State.busy, hp]
    have hwin : s.hostInBusyWindow := by simp [State.hostInBusyWindow, State.inBusyWindow, hp]
    have hturn := State.hostTurn_poll hh
    rw [hb, if_pos rfl] at hturn
    have hstep := step_of_transaction (by simp [hh]) (.inr hwin) (by rw [hturn])
    rw [hturn] at hstep
    obtain ⟨data, ready, hrun⟩ := ih (s := { s with
      phase := s.tick.phase, prdata := s.portRead .status, host := .poll :: rest, pready := true })
      (by simp [State.tick, hp]) rfl
    exact ⟨data, ready, (core_run_succ hstep n).trans hrun⟩

/-- After the window, the completion step and one more STATUS read the host goes on, and the state is the completed
command's, with STATUS on the port. -/
theorem run_polled {s u : State} {f : Flight} {rest : List HostEvent} (hp : s.phase = .running f)
    (hh : s.host = .poll :: rest) (hu : runLatched f.cl s = .next u) :
    ∃ data, core.run (f.wait + 2) s = .next (u.withPort .idle data true rest) ∧
      data = (u.withPort .idle data true rest).portRead .status := by
  obtain ⟨data, ready, hrun⟩ := run_polling hp hh
  have hoperands : (s.withPort (.running { f with wait := 0 }) data false (.poll :: rest)).operands = s.operands := by
    simp [State.operands, State.snapshot, State.withPort, hp]
  -- the completion step
  have hdone : step (s.withPort (.running { f with wait := 0 }) data ready (.poll :: rest)) =
      .next (u.withPort .idle data false (.poll :: rest)) :=
    (step_of_completing (f := { f with wait := 0 }) (by simp [State.withPort]) rfl rfl).trans
      (runLatched_withPort _ _ _ _ hoperands hu)
  -- the STATUS read that ends the polling
  obtain ⟨-, -, -, hpoll⟩ :=
    idleStepPerformsTheHostsTransaction (u.withPort .idle data false (.poll :: rest)) rest rfl
  have hread : step (u.withPort .idle data false (.poll :: rest)) =
      .next (u.withPort .idle ((u.withPort .idle data false (.poll :: rest)).portRead .status) true rest) :=
    hpoll rfl
  refine ⟨(u.withPort .idle data false (.poll :: rest)).portRead .status, ?_, rfl⟩
  rw [core_run_add hrun 2, core_run_succ hdone 1, core_run_succ hread 0]
  rfl

/-- Settles O44: the polled command's end, whose STATUS the host has read. -/
theorem pollReturnsAfterCompletion : Obligations.PollReturnsAfterCompletion := by
  intro s f rest hp hh
  obtain ⟨r, hu⟩ := runLatched_eq_finish f.cl s
  obtain ⟨data, hrun, hdata⟩ := run_polled hp hh hu
  obtain ⟨-, -, hbusy, -, hlerr, -⟩ := idAndStatusReadAsSpecified ((s.finish r).withPort .idle data true rest)
  rw [← hdata] at hbusy hlerr
  exact ⟨_, _, hu, hrun, rfl, rfl, rfl, rfl, rfl, rfl, rfl, hbusy, hlerr⟩

/-- Settles O45: the CMD write accepts the command's word, which decodes to the command, and the host polls to its end. -/
theorem issuedCommandRunsToItsEnd : Obligations.IssuedCommandRunsToItsEnd := by
  intro i s rest hidle hh
  obtain ⟨haccept, -⟩ := cmdWriteAcceptsWhenIdle s cmdOffset (encode i) (.poll :: rest) rfl
  obtain ⟨n, hstep⟩ := haccept hidle hh
  have hu := exec_eq_finish_commandBody i { s with phase := .running { cl := encode i, params := s.dec, wait := 0 } }
  obtain ⟨hdec, hovr, -⟩ := commandsKeepTheOtherRegisters i _ _ hu
  have hlatched := runLatched_withPort (.running { cl := encode i, params := s.dec, wait := n }) s.prdata true
    (.poll :: rest) rfl ((runLatched_of_instr (decodeEncodeRoundTrip i) _).trans hu)
  obtain ⟨data, hrun, -⟩ := run_polled (f := { cl := encode i, params := s.dec, wait := n }) rfl rfl hlatched
  exact ⟨_, _, _, hu, (core_run_succ hstep (n + 2)).trans hrun, rfl, rfl, rfl, rfl, hdec, rfl, rfl, hovr⟩

end Sys2Proof.Machine
end

section
/-! PROOFS. `WL <addr>: b0 b1 …` (30_encoding.md R116): one window write for each group of four bytes. -/

namespace Sys2Proof.Machine

/-! ### The words of WL -/

/-- The window word of the first four bytes of a list, padded with 0x00. -/
def groupWord (bytes : List Elem) : Word := bytes.getD 3 0 ++ bytes.getD 2 0 ++ bytes.getD 1 0 ++ bytes.getD 0 0

theorem wordByte_groupWord (bytes : List Elem) {i : Nat} (hi : i < 4) : wordByte (groupWord bytes) i = bytes.getD i 0 := by
  rw [groupWord, wordByte_append _ _ _ _ hi]
  rcases (by omega : i = 0 ∨ i = 1 ∨ i = 2 ∨ i = 3) with rfl | rfl | rfl | rfl <;> rfl

/-- WL writes the first group, and the others from four addresses further on. -/
theorem writeBytes_of_ne_nil (addr : Nat) {bytes : List Elem} (h : bytes ≠ []) :
    writeBytes addr bytes = .write (windowOffset addr) (groupWord bytes) :: writeBytes (addr + 4) (bytes.drop 4) := by
  match bytes, h with
  | [_], _ => rfl
  | [_, _], _ => rfl
  | [_, _, _], _ => rfl
  | _ :: _ :: _ :: _ :: _, _ => rfl

/-! ### The steps of WL -/

/-- The write of one group's word while BUSY = 0. -/
theorem step_of_windowWrite {s : State} (hp : s.phase = .idle) (v : BitVec 8) {w : Word} {rest : List HostEvent}
    (hh : s.host = .write (windowOffset (4 * v.toNat)) w :: rest) :
    step s = .next { s.writeWindow v w with host := rest, pready := true } := by
  have hoff : portReg (windowOffset (4 * v.toNat)) = .lmem v := portReg_lmem v
  rw [step_of_idle (by simp [hh]) hp, State.hostTurn_write hh, hoff, State.portWrite_lmem_idle (State.busy_of_idle hp)]

/-- After as many steps as there are groups, every byte of them is written and LMEM is otherwise as before. -/
theorem run_writeBytes {n addr : Nat} {bytes : List Elem} {s : State} (hn : n = (bytes.length + 3) / 4)
    (hp : s.phase = .idle) (haddr : addr % 4 = 0) (hle : addr + bytes.length ≤ 1024)
    (hh : s.host = writeBytes addr bytes) :
    ∃ mem ready, core.run n s = .next { s with lmem := mem, host := [], pready := ready } ∧
      ∀ a, Memory.read a mem =
        if addr ≤ a ∧ a < addr + n * 4 then some (bytes.getD (a - addr) 0) else Memory.read a s.lmem := by
  induction n generalizing addr bytes s with
  | zero =>
    obtain rfl : bytes = [] := List.eq_nil_of_length_eq_zero (by omega)
    refine ⟨s.lmem, s.pready, congrArg _ ?_, fun a => (if_neg (by omega)).symm⟩
    rw [← show s.host = [] from hh]
  | succ n ih =>
    have hne : bytes ≠ [] := fun hnil => by simp [hnil] at hn
    have hlen := List.length_pos_of_ne_nil hne
    rw [writeBytes_of_ne_nil addr hne] at hh
    obtain ⟨v, rfl⟩ : ∃ v : BitVec 8, addr = 4 * v.toNat :=
      ⟨BitVec.ofNat 8 (addr / 4), by rw [BitVec.toNat_ofNat]; omega⟩
    have hstep := step_of_windowWrite hp v hh
    obtain ⟨mem, ready, hrun, hread⟩ := ih (addr := 4 * v.toNat + 4) (bytes := bytes.drop 4)
      (s := { s.writeWindow v (groupWord bytes) with host := writeBytes (4 * v.toNat + 4) (bytes.drop 4), pready := true })
      (by rw [List.length_drop]; omega) hp (by omega) (by rw [List.length_drop]; omega) rfl
    refine ⟨mem, ready, (core_run_succ hstep n).trans hrun, fun a => (hread a).trans ?_⟩
    rw [read_writeWindow]
    by_cases hlater : 4 * v.toNat + 4 ≤ a ∧ a < 4 * v.toNat + 4 + n * 4
    · rw [if_pos hlater, if_pos (by omega), List.getD_eq_getElem?_getD, List.getElem?_drop, List.getD_eq_getElem?_getD]
      congr 3
      omega
    · rw [if_neg hlater]
      by_cases hfirst : 4 * v.toNat ≤ a ∧ a < 4 * v.toNat + 4
      · rw [if_pos hfirst, if_pos (by omega), wordByte_groupWord _ (by omega)]
      · rw [if_neg hfirst, if_neg (by omega)]

/-- Settles O46: a byte of the groups is one of the list's or padding, and all other bytes are as before. -/
theorem writeBytesNotation : Obligations.WriteBytesNotation := by
  intro s addr bytes hp haddr hle hh
  obtain ⟨mem, ready, hrun, hread⟩ := run_writeBytes rfl hp haddr hle hh
  refine ⟨_, hrun, rfl, hp, rfl, rfl, rfl, rfl, rfl, fun i hi => ?_, fun i hlen hi => ?_, fun a ha => ?_⟩
  · rw [hread, if_pos (by omega), Nat.add_sub_cancel_left, List.getD_eq_getElem _ _ hi, List.getElem?_eq_getElem hi]
  · rw [hread, if_pos (by omega), Nat.add_sub_cancel_left, List.getD_eq_default _ _ hlen]
  · rw [hread, if_neg (by omega)]

end Sys2Proof.Machine
end
